-- ==== Sys2Proof/Word.lean ====
section
/-! DEFINITION. The machine's word types (spec 00_scope.md R6, R7, R8). Every quantity is unsigned. -/

namespace Sys2Proof

/-- VW = TW = 8: a V register, a timer, a byte of memory (R6). -/
abbrev Byte := BitVec 8

/-- IW = IDXW = PCW = STKW = 16: an instruction word, I, PC, a stack entry (R6). -/
abbrev Word := BitVec 16

/-- A 4-bit `x` or `y` field: it names a V register, and every value names one (R8, R21). -/
abbrev Reg := BitVec 4

/-- A key of the 16-key keypad, 0x0 to 0xF (R246). -/
abbrev Key := BitVec 4

/-- The 12-bit `addr` field (R8). -/
abbrev Addr := BitVec 12

/-- VF, the flag register: index 15 (R6 FLAG_REG, R22). -/
abbrev VF : Reg := 15

end Sys2Proof
end

