-- ==== Sys2Proof/Syntax.lean ====
section
/-! DEFINITION. The instructions: one constructor per row of spec/opcode_table.json, in its order (30_encoding.md R94). -/

namespace Sys2Proof

/-- The decoder's closed set of descriptors (R93, R94): 35 instructions and the fallback. -/
inductive Instr where
  /-- 00E0, clear the screen (R201). -/
  | cls
  /-- 00EE, return from subroutine (R142). -/
  | ret
  /-- 0NNN, the silent no-op (R140). -/
  | sys (addr : Addr)
  /-- 1NNN, jump (R143). -/
  | jp (addr : Addr)
  /-- 2NNN, call (R144). -/
  | call (addr : Addr)
  /-- 3XKK, skip if V[x] equals the byte (R145). -/
  | seByte (x : Reg) (byte : Byte)
  /-- 4XKK, skip if V[x] differs from the byte (R146). -/
  | sneByte (x : Reg) (byte : Byte)
  /-- 5XY0, skip if V[x] equals V[y] (R147). -/
  | seReg (x y : Reg)
  /-- 6XKK, load an immediate (R160). -/
  | ldByte (x : Reg) (byte : Byte)
  /-- 7XKK, add an immediate, no flag (R180). -/
  | addByte (x : Reg) (byte : Byte)
  /-- 8XY0, copy a register (R161). -/
  | ldReg (x y : Reg)
  /-- 8XY1, bitwise or (R181). -/
  | orReg (x y : Reg)
  /-- 8XY2, bitwise and (R182). -/
  | andReg (x y : Reg)
  /-- 8XY3, bitwise exclusive or (R185). -/
  | xorReg (x y : Reg)
  /-- 8XY4, add with carry into VF (R183). -/
  | addReg (x y : Reg)
  /-- 8XY5, subtract (R188). -/
  | sub (x y : Reg)
  /-- 8XY6, shift right; the `y` field is in the word and ignored (R189, R98). -/
  | shr (x y : Reg)
  /-- 8XY7, reverse subtract (R190). -/
  | subn (x y : Reg)
  /-- 8XYE, shift left; the `y` field is in the word and ignored (R191, R98). -/
  | shl (x y : Reg)
  /-- 9XY0, skip if V[x] differs from V[y] (R148). -/
  | sneReg (x y : Reg)
  /-- ANNN, load the index register (R162). -/
  | ldI (addr : Addr)
  /-- BNNN, jump offset by V0 (R150). -/
  | jpV0 (addr : Addr)
  /-- CXKK, random byte and mask (R196). -/
  | rnd (x : Reg) (byte : Byte)
  /-- DXYN, draw a sprite (R202). -/
  | drw (x y : Reg) (nibble : BitVec 4)
  /-- EX9E, skip if the key is down (R204). -/
  | skp (x : Reg)
  /-- EXA1, skip if the key is up (R205). -/
  | sknp (x : Reg)
  /-- FX07, read the delay timer (R163). -/
  | ldVxDT (x : Reg)
  /-- FX0A, wait for a key (R164). -/
  | ldVxK (x : Reg)
  /-- FX15, set the delay timer (R165). -/
  | ldDTVx (x : Reg)
  /-- FX18, set the sound timer (R166). -/
  | ldSTVx (x : Reg)
  /-- FX1E, add to the index register (R184). -/
  | addIVx (x : Reg)
  /-- FX29, glyph address (R167). -/
  | ldFVx (x : Reg)
  /-- FX33, store the decimal digits (R168). -/
  | ldBVx (x : Reg)
  /-- FX55, store V0..Vx (R170). -/
  | ldMemVx (x : Reg)
  /-- FX65, load V0..Vx (R171). -/
  | ldVxMem (x : Reg)
  /-- Any other word: the logged no-op, which keeps the word for its record (R141). -/
  | unknown (op : Word)
  deriving DecidableEq, Repr

end Sys2Proof
end

