-- ==== Sys2Proof/Decode.lean ====
section
/-! DEFINITION. The decoder, a priority list of (mask, match) rows (30_encoding.md R93, R94), and the encoder. -/

namespace Sys2Proof

/-- `group`, bits 15 to 12 (R8). -/
def fieldGroup (op : Word) : BitVec 4 := op.extractLsb' 12 4

/-- `x`, bits 11 to 8 (R8). -/
def fieldX (op : Word) : Reg := op.extractLsb' 8 4

/-- `y`, bits 7 to 4 (R8). -/
def fieldY (op : Word) : Reg := op.extractLsb' 4 4

/-- `nibble`, bits 3 to 0 (R8). -/
def fieldNibble (op : Word) : BitVec 4 := op.extractLsb' 0 4

/-- `byte`, bits 7 to 0 (R8). -/
def fieldByte (op : Word) : Byte := op.extractLsb' 0 8

/-- `addr`, bits 11 to 0 (R8). -/
def fieldAddr (op : Word) : Addr := op.extractLsb' 0 12

/-- One row of the opcode map (R94): a word matches when its masked bits are the row's bits. -/
structure OpcodeRow where
  /-- The mnemonic as spec/opcode_table.json spells it. -/
  mnemonic : String
  /-- The bits the row looks at. -/
  mask : Word
  /-- The value those bits have. -/
  bits : Word
  /-- The descriptor of a word that matches. -/
  build : Word → Instr

/-- `(op AND mask) = match` (R94). -/
def OpcodeRow.accepts (r : OpcodeRow) (op : Word) : Bool := op &&& r.mask == r.bits

/-- Rows 1 to 7 of R94: groups 0 to 4. -/
def opcodeRowsLow : List OpcodeRow := [
  ⟨"CLS", 0xFFFF, 0x00E0, fun _ => .cls⟩,
  ⟨"RET", 0xFFFF, 0x00EE, fun _ => .ret⟩,
  ⟨"SYS_addr", 0xF000, 0x0000, fun op => .sys (fieldAddr op)⟩,
  ⟨"JP_addr", 0xF000, 0x1000, fun op => .jp (fieldAddr op)⟩,
  ⟨"CALL_addr", 0xF000, 0x2000, fun op => .call (fieldAddr op)⟩,
  ⟨"SE_Vx__byte", 0xF000, 0x3000, fun op => .seByte (fieldX op) (fieldByte op)⟩,
  ⟨"SNE_Vx__byte", 0xF000, 0x4000, fun op => .sneByte (fieldX op) (fieldByte op)⟩]

/-- Rows 8 to 20 of R94: groups 5 to 9. -/
def opcodeRowsMid : List OpcodeRow := [
  ⟨"SE_Vx__Vy", 0xF00F, 0x5000, fun op => .seReg (fieldX op) (fieldY op)⟩,
  ⟨"LD_Vx__byte", 0xF000, 0x6000, fun op => .ldByte (fieldX op) (fieldByte op)⟩,
  ⟨"ADD_Vx__byte", 0xF000, 0x7000, fun op => .addByte (fieldX op) (fieldByte op)⟩,
  ⟨"LD_Vx__Vy", 0xF00F, 0x8000, fun op => .ldReg (fieldX op) (fieldY op)⟩,
  ⟨"OR_Vx__Vy", 0xF00F, 0x8001, fun op => .orReg (fieldX op) (fieldY op)⟩,
  ⟨"AND_Vx__Vy", 0xF00F, 0x8002, fun op => .andReg (fieldX op) (fieldY op)⟩,
  ⟨"XOR_Vx__Vy", 0xF00F, 0x8003, fun op => .xorReg (fieldX op) (fieldY op)⟩,
  ⟨"ADD_Vx__Vy", 0xF00F, 0x8004, fun op => .addReg (fieldX op) (fieldY op)⟩,
  ⟨"SUB_Vx__Vy", 0xF00F, 0x8005, fun op => .sub (fieldX op) (fieldY op)⟩,
  ⟨"SHR_Vx", 0xF00F, 0x8006, fun op => .shr (fieldX op) (fieldY op)⟩,
  ⟨"SUBN_Vx__Vy", 0xF00F, 0x8007, fun op => .subn (fieldX op) (fieldY op)⟩,
  ⟨"SHL_Vx", 0xF00F, 0x800E, fun op => .shl (fieldX op) (fieldY op)⟩,
  ⟨"SNE_Vx__Vy", 0xF00F, 0x9000, fun op => .sneReg (fieldX op) (fieldY op)⟩]

/-- Rows 21 to 35 of R94: groups A to F. -/
def opcodeRowsHigh : List OpcodeRow := [
  ⟨"LD_I__addr", 0xF000, 0xA000, fun op => .ldI (fieldAddr op)⟩,
  ⟨"JP_V0__addr", 0xF000, 0xB000, fun op => .jpV0 (fieldAddr op)⟩,
  ⟨"RND_Vx__byte", 0xF000, 0xC000, fun op => .rnd (fieldX op) (fieldByte op)⟩,
  ⟨"DRW_Vx__Vy__nibble", 0xF000, 0xD000, fun op => .drw (fieldX op) (fieldY op) (fieldNibble op)⟩,
  ⟨"SKP_Vx", 0xF0FF, 0xE09E, fun op => .skp (fieldX op)⟩,
  ⟨"SKNP_Vx", 0xF0FF, 0xE0A1, fun op => .sknp (fieldX op)⟩,
  ⟨"LD_Vx__DT", 0xF0FF, 0xF007, fun op => .ldVxDT (fieldX op)⟩,
  ⟨"LD_Vx__K", 0xF0FF, 0xF00A, fun op => .ldVxK (fieldX op)⟩,
  ⟨"LD_DT__Vx", 0xF0FF, 0xF015, fun op => .ldDTVx (fieldX op)⟩,
  ⟨"LD_ST__Vx", 0xF0FF, 0xF018, fun op => .ldSTVx (fieldX op)⟩,
  ⟨"ADD_I__Vx", 0xF0FF, 0xF01E, fun op => .addIVx (fieldX op)⟩,
  ⟨"LD_F__Vx", 0xF0FF, 0xF029, fun op => .ldFVx (fieldX op)⟩,
  ⟨"LD_B__Vx", 0xF0FF, 0xF033, fun op => .ldBVx (fieldX op)⟩,
  ⟨"LD__I___Vx", 0xF0FF, 0xF055, fun op => .ldMemVx (fieldX op)⟩,
  ⟨"LD_Vx___I", 0xF0FF, 0xF065, fun op => .ldVxMem (fieldX op)⟩]

/-- Rows 1 to 35 of R94, in priority order. Row 36, which every word matches, is `decodeWord`'s last case. -/
def opcodeRows : List OpcodeRow := opcodeRowsLow ++ opcodeRowsMid ++ opcodeRowsHigh

/-- `Decode(op)`: the first matching row wins, and a word that matches none is NOP.UNKNOWN (R93, R94).
It reads nothing but the word. -/
def decodeWord (op : Word) : Instr :=
  match opcodeRows.find? (·.accepts op) with
  | some r => r.build op
  | none => .unknown op

/-- The word of two bytes, the first the high one (R61). -/
def wordOfBytes (hi lo : Byte) : Word := hi ++ lo

/-- Why bytes hold no instruction. -/
inductive DecodeError where
  /-- Fewer than the two bytes of one instruction (R90). Raised by `decode` on a short list only; the
  machine's fetch always reads two bytes. Safe: no word is refused. -/
  | truncated
  deriving DecidableEq, Repr

/-- The instruction at the head of a big-endian byte stream, with the rest (R61, R90). -/
def decode : List Byte → Except DecodeError (Instr × List Byte)
  | hi :: lo :: rest => .ok (decodeWord (wordOfBytes hi lo), rest)
  | _ => .error .truncated

/-- The word of an instruction, from the patterns of R91 and R94. -/
def encode : Instr → Word
  | .cls => 0x00E0
  | .ret => 0x00EE
  | .sys addr => 0x0#4 ++ addr
  | .jp addr => 0x1#4 ++ addr
  | .call addr => 0x2#4 ++ addr
  | .seByte x k => 0x3#4 ++ x ++ k
  | .sneByte x k => 0x4#4 ++ x ++ k
  | .seReg x y => 0x5#4 ++ x ++ y ++ 0x0#4
  | .ldByte x k => 0x6#4 ++ x ++ k
  | .addByte x k => 0x7#4 ++ x ++ k
  | .ldReg x y => 0x8#4 ++ x ++ y ++ 0x0#4
  | .orReg x y => 0x8#4 ++ x ++ y ++ 0x1#4
  | .andReg x y => 0x8#4 ++ x ++ y ++ 0x2#4
  | .xorReg x y => 0x8#4 ++ x ++ y ++ 0x3#4
  | .addReg x y => 0x8#4 ++ x ++ y ++ 0x4#4
  | .sub x y => 0x8#4 ++ x ++ y ++ 0x5#4
  | .shr x y => 0x8#4 ++ x ++ y ++ 0x6#4
  | .subn x y => 0x8#4 ++ x ++ y ++ 0x7#4
  | .shl x y => 0x8#4 ++ x ++ y ++ 0xE#4
  | .sneReg x y => 0x9#4 ++ x ++ y ++ 0x0#4
  | .ldI addr => 0xA#4 ++ addr
  | .jpV0 addr => 0xB#4 ++ addr
  | .rnd x k => 0xC#4 ++ x ++ k
  | .drw x y n => 0xD#4 ++ x ++ y ++ n
  | .skp x => 0xE#4 ++ x ++ 0x9E#8
  | .sknp x => 0xE#4 ++ x ++ 0xA1#8
  | .ldVxDT x => 0xF#4 ++ x ++ 0x07#8
  | .ldVxK x => 0xF#4 ++ x ++ 0x0A#8
  | .ldDTVx x => 0xF#4 ++ x ++ 0x15#8
  | .ldSTVx x => 0xF#4 ++ x ++ 0x18#8
  | .addIVx x => 0xF#4 ++ x ++ 0x1E#8
  | .ldFVx x => 0xF#4 ++ x ++ 0x29#8
  | .ldBVx x => 0xF#4 ++ x ++ 0x33#8
  | .ldMemVx x => 0xF#4 ++ x ++ 0x55#8
  | .ldVxMem x => 0xF#4 ++ x ++ 0x65#8
  | .unknown op => op

/-- The two bytes of a word as memory holds them, the high byte at the lower address (R61, R263). -/
def bytesOfWord (op : Word) : List Byte := [op.extractLsb' 8 8, op.extractLsb' 0 8]

/-- The bytes of an instruction in memory order. -/
def encodeBytes (i : Instr) : List Byte := bytesOfWord (encode i)

/-- The word the opcode table numbers as `w` (bit 0 the least significant bit of the one 16-bit word); every
bit from `nbits` up is 0. -/
def tableWord (nbits w : Nat) : Word := BitVec.ofNat 16 (w % 2 ^ nbits)

/-- The instruction the decoder reads from the table's word `w`, laid out as the hardware stores it.
No instruction is longer than 16 bits (R90). -/
def decodeTableWord (nbits w : Nat) : Option Instr :=
  if nbits ≤ 16 then
    match decode (bytesOfWord (tableWord nbits w)) with
    | .ok (i, _) => some i
    | .error _ => none
  else none

end Sys2Proof
end

