-- ==== Sys2Proof/Config.lean ====
section
/-! DEFINITION. What the spec fixes once for the machine (00_scope.md R6) and the values it leaves free. -/

namespace Sys2Proof.Config

/-- ENTRY, the program entry address and the reset value of PC (R6, R24). -/
def entry : Word := 0x0200

/-- PROG_MAX, the largest program in bytes (R6, R264). -/
def progMax : Nat := 3584

/-- SPRITE_COLS, the pixel columns drawn per sprite row: the spec's choice 8 (R203, D15).
DESIGN CHOICE of the spec; unsafe for the original software, which draws 7 (log entry 9). -/
def spriteCols : Nat := 8

/-- MEM_FILL as the model's reset state takes it (R265 leaves it open).
DESIGN CHOICE, unsafe (log entry 4); `State.resetWith` takes any other filling. -/
def memFill : Byte := 0x00

/-- RNG: the byte `Rand8()` returns at the n-th query to HOST (R196, D27). A free value (log entry 2). -/
opaque rand8 : Nat → Byte

/-- The answer of `KeyDown(k)` at the n-th query to HOST (R246). A free value (log entry 2). -/
opaque keyDown : Nat → Key → Bool

/-- The answer of `KeyUp(k)` at the n-th query to HOST, a query of its own (R205, R246).
A free value (log entry 2). -/
opaque keyUp : Nat → Key → Bool

end Sys2Proof.Config
end

