-- ==== Sys2Proof/Machine/State.lean ====
section
/-! DEFINITION. The machine's state as plain data, the reasons a step can stop, and the state after reset
(10_state.md). -/

namespace Sys2Proof.Machine

/-- Why a run stops. -/
inductive Fault where
  /-- STOP = 1: neither CORE nor TIMER has an enabled step (R32, R251). Raised by `step` alone, never by a
  meaning. Safe: the hardware takes no step either. -/
  | stopped
  deriving DecidableEq, Repr

/-- What the machine does not accept. -/
inductive Refusal where
  /-- An instruction without a meaning; raised by an arm of `exec` and, in this model, by none. Safe. -/
  | notModelled (mnemonic : String)
  /-- A program longer than PROG_MAX, which never comes out of reset (R264). Raised by `State.load`, HOST's
  operation before the first step, and by no step. Safe: the hardware never sees such a program. -/
  | programTooLong
  deriving DecidableEq, Repr

/-- The anomalies of R220: conditions that are logged and divert nothing. -/
inductive Anomaly where
  /-- Code 1: the fetched word matches no known pattern. -/
  | decodeUnknown
  /-- Code 2: CALL with SP = 16. -/
  | stackOverflow
  /-- Code 3: RET with SP = 0. -/
  | stackUnderflow
  /-- Code 4: a byte access at a 16-bit address of 0x1000 or above. -/
  | memRange
  /-- Code 5: a key number or a glyph index above 15. -/
  | operandRange
  deriving DecidableEq, Repr

/-- One record of LOG: a code and 16 bits of info (R31, R221). -/
structure LogRecord where
  code : Anomaly
  info : Word
  deriving DecidableEq, Repr

/-- The output events to the display collaborator (R40, R245). -/
inductive DisplayEvent where
  /-- `display_clear`, by CLS. -/
  | clear
  /-- `display_render`, by DRW. -/
  | render
  /-- `display_pause_overlay`, by every Paused cycle. -/
  | pauseOverlay
  deriving DecidableEq, Repr

/-- Whose turn it is (R20): the agents interleave in any order, so the order is data (log entry 1). -/
inductive Turn where
  /-- CORE runs one cycle (R121); in a hold it has no enabled step and its turn passes (R128, log entry 15). -/
  | core
  /-- TIMER ticks (R241). -/
  | tick
  /-- HOST raises the pause toggle (R122, R250). -/
  | pauseToggle
  /-- HOST delivers a key event, which finishes the hold in progress (R128), or is ignored (R231). -/
  | keyEvent (k : Key)
  /-- HOST sets STOP (R251). -/
  | stop
  deriving DecidableEq, Repr

/-- MEM as the bytes that differ from what an unlisted address reads as, addresses strictly rising (R34). -/
abbrev Memory := List Host.Cell

/-- FB: 32 rows of 64 pixels; column c of a row is bit 63 - c, so the leftmost column is the most
significant bit (R35, log entry 11). -/
abbrev Frame := Vector (BitVec 64) 32

/-- Everything the spec gives the machine (10_state.md), the block's ports (R40), and the model's own
`agenda` and `draws`. -/
@[ext]
structure State where
  /-- V0 to VF (R21). -/
  v : Vector Byte 16
  /-- I (R23). -/
  i : Word
  /-- PC (R24). -/
  pc : Word
  /-- SP, the number of live stack entries, 0 to 16 (R25). -/
  sp : Fin 17
  /-- STACK (R26). -/
  stack : Vector Word 16
  /-- DT (R27). -/
  dt : Byte
  /-- ST (R28). -/
  st : Byte
  /-- MEM (R34). -/
  mem : Memory
  /-- PAUSED (R29). -/
  paused : Bool
  /-- WAITKEY: the register LD Vx, K is waiting to write, if it is waiting (R30). -/
  waitKey : Option Reg
  /-- ANOM: bit n - 1 is ANOM[n] (R31, log entry 18). -/
  anom : BitVec 5
  /-- LOG, oldest record first (R31). -/
  log : List LogRecord
  /-- STOP (R32). -/
  stop : Bool
  /-- FB (R35). -/
  fb : Frame
  /-- The display events emitted so far, oldest first (R40, R245). -/
  display : List DisplayEvent
  /-- Port pause_toggle: HOST asked for a toggle since the previous sample (R122). -/
  pauseToggle : Bool
  /-- Port wait_key, answer: the key HOST delivers, present inside the step that takes it and `none` between
  steps (R128, log entry 7). -/
  keyEvent : Option Key
  /-- Port rand8: HOST's next answers, where they are already given (R196, log entry 2). -/
  randIn : List Byte
  /-- Port key_down: HOST's next answers, where they are already given (R246, log entry 2). -/
  keyDownIn : List Bool
  /-- Port key_up: HOST's next answers, where they are already given (R246, log entry 2). -/
  keyUpIn : List Bool
  /-- The model's own: the turns already fixed, next first; when empty the next turn is CORE's (log entry 1). -/
  agenda : List Turn
  /-- The model's own: how many queries HOST has been asked; the argument of the free values (log entry 2). -/
  draws : Nat
  deriving DecidableEq, Repr

/-- The state after reset (R45, R260). The spec gives every value but those of `stack` (log entry 5), the
contents of memory outside the font (log entry 4) and the ports' and the model's own fields (log entry 3). -/
def State.reset : State where
  v := Vector.replicate 16 0x00
  i := 0x0000
  pc := Config.entry
  sp := 0
  stack := Vector.replicate 16 0x0000
  dt := 0x00
  st := 0x00
  mem := []
  paused := false
  waitKey := none
  anom := 0
  log := []
  stop := false
  fb := Vector.replicate 32 0
  display := []
  pauseToggle := false
  keyEvent := none
  randIn := []
  keyDownIn := []
  keyUpIn := []
  agenda := []
  draws := 0

end Sys2Proof.Machine
end

