-- ==== Sys2Proof/Machine/Memory.lean ====
section
/-! DEFINITION. MEM (20_memory.md): what an unlisted address reads as, one byte read, one byte written, and the
canonical form every operation keeps. -/

namespace Sys2Proof.Machine

/-- The customary font, glyphs 0 to 7 (R69; the bytes are the spec's general knowledge, decision D9). -/
def fontLow : List Byte := [
  0xF0, 0x90, 0x90, 0x90, 0xF0,
  0x20, 0x60, 0x20, 0x20, 0x70,
  0xF0, 0x10, 0xF0, 0x80, 0xF0,
  0xF0, 0x10, 0xF0, 0x10, 0xF0,
  0x90, 0x90, 0xF0, 0x10, 0x10,
  0xF0, 0x80, 0xF0, 0x10, 0xF0,
  0xF0, 0x80, 0xF0, 0x90, 0xF0,
  0xF0, 0x10, 0x20, 0x40, 0x40]

/-- The customary font, glyphs 8 to F (R69; the bytes are the spec's general knowledge, decision D9). -/
def fontHigh : List Byte := [
  0xF0, 0x90, 0xF0, 0x90, 0xF0,
  0xF0, 0x90, 0xF0, 0x10, 0xF0,
  0xF0, 0x90, 0xF0, 0x90, 0x90,
  0xE0, 0x90, 0xE0, 0x90, 0xE0,
  0xF0, 0x80, 0x80, 0x80, 0xF0,
  0xE0, 0x90, 0x90, 0x90, 0xE0,
  0xF0, 0x80, 0xF0, 0x80, 0xF0,
  0xF0, 0x80, 0xF0, 0x80, 0x80]

/-- The 80 font bytes, glyph g at 5 * g from FONT_BASE = 0x000 (R69). -/
def font : List Byte := fontLow ++ fontHigh

/-- What an address with no entry reads as: the reset contents, that is the font where it lies (R69) and
MEM_FILL elsewhere (R45, R265; log entry 4). -/
def resetByte (a : Nat) : Byte := font.getD a Config.memFill

/-- The entry at an address. -/
def Memory.lookup (a : Nat) : Memory → Option Byte
  | [] => none
  | c :: rest => if c.1 = a then some c.2 else Memory.lookup a rest

/-- `MEM[a]` (R9). -/
def Memory.read (m : Memory) (a : Nat) : Byte := (m.lookup a).getD (resetByte a)

/-- Every entry but those at an address. -/
def Memory.erase (a : Nat) (m : Memory) : Memory := m.filter fun c => c.1 != a

/-- An entry put before the first higher address. -/
def Memory.insert (a : Nat) (b : Byte) : Memory → Memory
  | [] => [(a, b)]
  | c :: rest => if a < c.1 then (a, b) :: c :: rest else c :: Memory.insert a b rest

/-- `MEM[a] <- b` (R9): a byte equal to the reset contents leaves no entry. -/
def Memory.write (m : Memory) (a : Nat) (b : Byte) : Memory :=
  if b = resetByte a then m.erase a else (m.erase a).insert a b

/-- Addresses strictly rising from above `lo`. -/
def Memory.rising : Option Nat → Memory → Bool
  | _, [] => true
  | lo, c :: rest => lo.all (· < c.1) && Memory.rising (some c.1) rest

/-- The canonical form: addresses strictly rising, all in 0x000 to 0xFFF, no entry equal to what its address
reads as without it. -/
def Memory.wf (m : Memory) : Bool :=
  Memory.rising none m && m.all fun c => decide (c.1 < 4096) && c.2 != resetByte c.1

end Sys2Proof.Machine
end

