-- ==== Sys2Proof/Machine/Ops.lean ====
section
/-! DEFINITION. The named operations on the state. The spec has no exception to take or return from (R230,
R233, R234): `State.logAnomaly` is the one shared operation in that place (R221). -/

namespace Sys2Proof.Machine

/-- What a step or a meaning answers. -/
abbrev Result := Host.Outcome State Fault Refusal

/-! ### V registers (R21) -/

/-- `V[r]`. -/
def State.getV (s : State) (r : Reg) : Byte := s.v.get r.toFin

/-- `V[r] <- b`. -/
def State.setV (s : State) (r : Reg) (b : Byte) : State := { s with v := s.v.set r.toNat b r.isLt }

/-! ### I and PC (R23, R24) -/

/-- `I <- w`. -/
def State.setI (s : State) (w : Word) : State := { s with i := w }

/-- `PC <- w`. -/
def State.setPc (s : State) (w : Word) : State := { s with pc := w }

/-- P5 after an instruction that leaves PC alone: PC + 2 mod 2^16 (R127). -/
def State.advance (s : State) : State := s.setPc (s.pc + 2)

/-- A control transfer with P5: PC is the target (R24; the compensation of R127 is folded in, log entry 12). -/
def State.jump (s : State) (target : Word) : State := s.setPc target

/-- `Skip(cond)` with P5: PC + 4 if the condition holds, else PC + 2 (R149). -/
def State.skip (s : State) (cond : Bool) : State := s.setPc (if cond then s.pc + 4 else s.pc + 2)

/-! ### Anomalies (R220, R221) -/

/-- The 3-bit code of an anomaly (R220). -/
def Anomaly.code : Anomaly → BitVec 3
  | .decodeUnknown => 1
  | .stackOverflow => 2
  | .stackUnderflow => 3
  | .memRange => 4
  | .operandRange => 5

/-- ANOM[code] of an anomaly (R31): bit code - 1 of the register (log entry 18). -/
def State.anomBit (s : State) (c : Anomaly) : Bool := s.anom.getLsbD (c.code.toNat - 1)

/-- `Log(code, info)` (R221): sets ANOM[code] and appends one record. -/
def State.logAnomaly (s : State) (c : Anomaly) (info : Word) : State :=
  { s with anom := s.anom ||| BitVec.twoPow 5 (c.code.toNat - 1), log := s.log ++ [⟨c, info⟩] }

/-! ### Memory accesses (R66, R67) -/

/-- The byte a 16-bit address reaches: the address bus has 12 bits (R66). -/
def State.byteAt (s : State) (a : Word) : Byte := s.mem.read (a.toNat % 4096)

/-- The record an access at a 16-bit address leaves: MEM_RANGE when it is 0x1000 or above (R66, R67). -/
def State.noteAccess (s : State) (a : Word) : State :=
  if 0x1000 ≤ a.toNat then s.logAnomaly .memRange a else s

/-- `MEM[a mod 4096] <- b`, without the record. -/
def State.pokeByte (s : State) (a : Word) (b : Byte) : State :=
  { s with mem := s.mem.write (a.toNat % 4096) b }

/-- `MemWrite(a, 1, b)` (R67). `MemRead(a, 1)` (R66) is `byteAt` together with `noteAccess`. -/
def State.memWrite (s : State) (a : Word) (b : Byte) : State := (s.noteAccess a).pokeByte a b

/-- The records of n reads at `base`, `base` + 1, ..., ascending (R64). -/
def State.noteRun (s : State) (base : Word) : Nat → State
  | 0 => s
  | n + 1 => (s.noteRun base n).noteAccess (base + BitVec.ofNat 16 n)

/-! ### Fetch (R61, R62, R124) -/

/-- `Fetch(PC)`, the word: MEM[PC] is the high byte, MEM[PC + 1 mod 2^16] the low one (R61). -/
def State.fetchWord (s : State) : Word := wordOfBytes (s.byteAt s.pc) (s.byteAt (s.pc + 1))

/-- `Fetch(PC)`, the records: the high byte's access, then the low byte's (R62, R221). -/
def State.noteFetch (s : State) : State := (s.noteAccess s.pc).noteAccess (s.pc + 1)

/-! ### The stack (R25, R26) -/

/-- Push a return address and jump (R144), or, with 16 addresses live, log STACK_OVERFLOW and go on. -/
def State.callTo (s : State) (target : Word) : State :=
  if h : s.sp.val < 16 then
    { s with
      stack := s.stack.set s.sp.val (s.pc + 2) h
      sp := ⟨s.sp.val + 1, Nat.succ_lt_succ h⟩
      pc := target }
  else (s.logAnomaly .stackOverflow s.pc).advance

/-- Pop a return address and go there (R142), or, with none live, log STACK_UNDERFLOW and go on. -/
def State.returnFrom (s : State) : State :=
  if h : 0 < s.sp.val then
    { s with
      sp := ⟨s.sp.val - 1, Nat.lt_of_le_of_lt (Nat.sub_le _ _) s.sp.isLt⟩
      pc := s.stack.get ⟨s.sp.val - 1, Nat.sub_one_lt_of_le h (Nat.le_of_lt_succ s.sp.isLt)⟩ }
  else (s.logAnomaly .stackUnderflow s.pc).advance

/-! ### Timers (R27, R28, R241) -/

/-- `DT <- b`. -/
def State.setDt (s : State) (b : Byte) : State := { s with dt := b }

/-- `ST <- b`. -/
def State.setSt (s : State) (b : Byte) : State := { s with st := b }

/-- One decrement, saturating at zero (R241). -/
def decTimer (b : Byte) : Byte := if b = 0 then 0 else b - 1

/-- `TimerTick()` (R241): both timers, unless PAUSED. -/
def State.tick (s : State) : State :=
  if s.paused then s else (s.setDt (decTimer s.dt)).setSt (decTimer s.st)

/-- TONE = (ST > 0) (R28, R247). -/
def State.tone (s : State) : Bool := decide (0 < s.st.toNat)

/-! ### The display's side (R35, R245) -/

/-- `FB <- f`. -/
def State.setFb (s : State) (f : Frame) : State := { s with fb := f }

/-- An output event to the display collaborator. -/
def State.emit (s : State) (e : DisplayEvent) : State := { s with display := s.display ++ [e] }

/-! ### HOST's answers (R40, R196, R246): the answer given in the state, else a free value (log entry 2) -/

/-- `Rand8()`, the byte. -/
def State.randAnswer (s : State) : Byte := s.randIn.headD (Config.rand8 s.draws)

/-- `Rand8()`, the query: it uses the answer up. -/
def State.takeRand (s : State) : State := { s with randIn := s.randIn.tail, draws := s.draws + 1 }

/-- `KeyDown(k)`, the answer. -/
def State.keyDownAnswer (s : State) (k : Key) : Bool := s.keyDownIn.headD (Config.keyDown s.draws k)

/-- `KeyDown(k)`, the query: each is answered once (R275). -/
def State.takeKeyDown (s : State) : State := { s with keyDownIn := s.keyDownIn.tail, draws := s.draws + 1 }

/-- `KeyUp(k)`, the answer: a query of its own, no negation of `KeyDown` (R205, R246). -/
def State.keyUpAnswer (s : State) (k : Key) : Bool := s.keyUpIn.headD (Config.keyUp s.draws k)

/-- `KeyUp(k)`, the query. -/
def State.takeKeyUp (s : State) : State := { s with keyUpIn := s.keyUpIn.tail, draws := s.draws + 1 }

/-! ### The key-wait (R30, R128) -/

/-- The hold begins, or goes on: PC stays at the FX0A (R128). -/
def State.hold (s : State) (x : Reg) : State := { s with waitKey := some x }

/-- HOST's key is at the port. -/
def State.offerKey (s : State) (k : Key) : State := { s with keyEvent := some k }

/-- The hold ends: the key event is taken. -/
def State.release (s : State) : State := { s with waitKey := none, keyEvent := none }

/-! ### Pause and stop (R122, R251) -/

/-- HOST raises the pause toggle. -/
def State.raiseToggle (s : State) : State := { s with pauseToggle := true }

/-- P0: the toggle flips PAUSED and is cleared by being sampled (R122, R231). -/
def State.samplePause (s : State) : State :=
  { s with paused := s.paused != s.pauseToggle, pauseToggle := false }

/-- HOST sets STOP. In a hold whose key has not come the instruction stays unfinished (R128, R251). -/
def State.setStop (s : State) : State := { s with stop := true }

end Sys2Proof.Machine
end

