-- ==== Sys2Proof/Machine/Operands.lean ====
section
/-! DEFINITION. Operand forms: how a field or a register value becomes what an instruction works on (R92). -/

namespace Sys2Proof.Machine

/-- `zext_16(addr)` (R92). -/
def addrWord (addr : Addr) : Word := addr.setWidth 16

/-- `zext_16` of a byte (R7). -/
def byteWord (b : Byte) : Word := b.setWidth 16

/-- `zext_8` of a key (R164). -/
def keyByte (k : Key) : Byte := k.setWidth 8

/-- The target of JP V0, addr: a 16-bit sum, not reduced to 12 bits (R150). -/
def State.offsetTarget (s : State) (addr : Addr) : Word := addrWord addr + byteWord (s.getV 0)

/-- The address of the k-th byte of a run: (I + k) mod 2^16 (R64). -/
def State.dataAddr (s : State) (k : Nat) : Word := s.i + BitVec.ofNat 16 k

/-- The key a register value names: its low four bits (R204, D14). -/
def keyOf (b : Byte) : Key := b.setWidth 4

/-- The record of a key number or glyph index above 15 (R226). -/
def State.noteOperand (s : State) (b : Byte) : State :=
  if 15 < b.toNat then s.logAnomaly .operandRange (byteWord b) else s

/-- FONT_BASE + 5 * g, FONT_BASE = 0 (R167). -/
def glyphAddr (g : Byte) : Word := BitVec.ofNat 16 (5 * g.toNat)

/-- The hundreds of a byte (R168). -/
def bcdHundreds (b : Byte) : Byte := BitVec.ofNat 8 (b.toNat / 100)

/-- The tens of a byte (R168). -/
def bcdTens (b : Byte) : Byte := BitVec.ofNat 8 (b.toNat / 10 % 10)

/-- The units of a byte (R168). -/
def bcdUnits (b : Byte) : Byte := BitVec.ofNat 8 (b.toNat % 10)

/-- V0 to V(n-1) to memory at I, ascending (R170). -/
def State.storeRegs (s : State) : Nat → State
  | 0 => s
  | n + 1 => (s.storeRegs n).memWrite (s.dataAddr n) (s.getV (BitVec.ofNat 4 n))

/-- V0 to V(n-1) from memory at I, ascending (R171). -/
def State.loadRegs (s : State) : Nat → State
  | 0 => s
  | n + 1 =>
    ((s.loadRegs n).noteAccess (s.dataAddr n)).setV (BitVec.ofNat 4 n) (s.byteAt (s.dataAddr n))

end Sys2Proof.Machine
end

