-- ==== Sys2Proof/Machine/Flags.lean ====
section
/-! DEFINITION. The flag computations (the flag table of 43_arith_logic.md) and the flag-output mux (R10, R22). -/

namespace Sys2Proof.Machine

/-- The 8-bit sum overflows, computed before truncation (R183). -/
def carryFlag (a b : Byte) : Bool := decide (255 < a.toNat + b.toNat)

/-- No borrow: minuend at or above subtrahend (R188, R190). -/
def noBorrowFlag (a b : Byte) : Bool := decide (b.toNat ≤ a.toNat)

/-- Bit 0 of the operand before shifting (R189). -/
def shrFlag (a : Byte) : Bool := a.getLsbD 0

/-- Bit 7 of the operand before shifting (R191). -/
def shlFlag (a : Byte) : Bool := a.getLsbD 7

/-- The flag bit zero-extended to 8 bits (R22). -/
def flagByte (f : Bool) : Byte := if f then 0x01 else 0x00

/-- `VF <- f` (R22). -/
def State.setFlag (s : State) (f : Bool) : State := s.setV VF (flagByte f)

/-- The result to V[x], then the flag to VF, so that the flag wins when x = 15 (R10, R187, D10). -/
def State.setVFlag (s : State) (x : Reg) (b : Byte) (f : Bool) : State := (s.setV x b).setFlag f

end Sys2Proof.Machine
end

