-- ==== Sys2Proof/Machine/Arith.lean ====
section
/-! DEFINITION. Arithmetic, logic, shifts and random (43_arith_logic.md). Everything is unsigned and wraps
(R186); operands are read first, the result is written, then the flag (R10, R187). Each meaning is P4 and P5 in
one (R127, log entry 12). -/

namespace Sys2Proof.Machine

/-- ADD Vx, byte: no flag (R180). -/
def execAddByte (x : Reg) (byte : Byte) (s : State) : Result := .next (s.setV x (s.getV x + byte)).advance

/-- ADD Vx, Vy (R183). -/
def execAddReg (x y : Reg) (s : State) : Result :=
  .next (s.setVFlag x (s.getV x + s.getV y) (carryFlag (s.getV x) (s.getV y))).advance

/-- ADD I, Vx: 16-bit wrap, no flag (R184). -/
def execAddIVx (x : Reg) (s : State) : Result := .next (s.setI (s.i + byteWord (s.getV x))).advance

/-- OR Vx, Vy: no flag (R181). -/
def execOrReg (x y : Reg) (s : State) : Result := .next (s.setV x (s.getV x ||| s.getV y)).advance

/-- AND Vx, Vy: no flag (R182). -/
def execAndReg (x y : Reg) (s : State) : Result := .next (s.setV x (s.getV x &&& s.getV y)).advance

/-- XOR Vx, Vy: no flag (R185). -/
def execXorReg (x y : Reg) (s : State) : Result := .next (s.setV x (s.getV x ^^^ s.getV y)).advance

/-- SUB Vx, Vy (R188). -/
def execSub (x y : Reg) (s : State) : Result :=
  .next (s.setVFlag x (s.getV x - s.getV y) (noBorrowFlag (s.getV x) (s.getV y))).advance

/-- SUBN Vx, Vy: V[y] - V[x] to V[x] (R190). -/
def execSubn (x y : Reg) (s : State) : Result :=
  .next (s.setVFlag x (s.getV y - s.getV x) (noBorrowFlag (s.getV y) (s.getV x))).advance

/-- SHR Vx: V[x] in place, `y` ignored (R189, R98, R278). -/
def execShr (x _y : Reg) (s : State) : Result :=
  .next (s.setVFlag x (s.getV x >>> 1) (shrFlag (s.getV x))).advance

/-- SHL Vx: V[x] in place, `y` ignored (R191, R98, R278). -/
def execShl (x _y : Reg) (s : State) : Result :=
  .next (s.setVFlag x (s.getV x <<< 1) (shlFlag (s.getV x))).advance

/-- RND Vx, byte: HOST's byte AND the immediate, no flag (R196). -/
def execRnd (x : Reg) (byte : Byte) (s : State) : Result :=
  .next (s.takeRand.setV x (s.randAnswer &&& byte)).advance

end Sys2Proof.Machine
end

