-- ==== Sys2Proof/Machine/Control.lean ====
section
/-! DEFINITION. Control transfer, skips and no-ops (41_control_transfer.md). Each meaning is P4 and P5 of the
cycle in one (R127, log entry 12): it takes the state at P4, PC = pc0, and answers the state after P5. -/

namespace Sys2Proof.Machine

/-- SYS addr: nothing (R140). -/
def execSys (_addr : Addr) (s : State) : Result := .next s.advance

/-- NOP.UNKNOWN: one record, nothing else (R141). -/
def execUnknown (op : Word) (s : State) : Result := .next (s.logAnomaly .decodeUnknown op).advance

/-- JP addr (R143). -/
def execJp (addr : Addr) (s : State) : Result := .next (s.jump (addrWord addr))

/-- JP V0, addr (R150). -/
def execJpV0 (addr : Addr) (s : State) : Result := .next (s.jump (s.offsetTarget addr))

/-- CALL addr (R144). -/
def execCall (addr : Addr) (s : State) : Result := .next (s.callTo (addrWord addr))

/-- RET (R142). -/
def execRet (s : State) : Result := .next s.returnFrom

/-- SE Vx, byte (R145). -/
def execSeByte (x : Reg) (byte : Byte) (s : State) : Result := .next (s.skip (s.getV x == byte))

/-- SNE Vx, byte (R146). -/
def execSneByte (x : Reg) (byte : Byte) (s : State) : Result := .next (s.skip (s.getV x != byte))

/-- SE Vx, Vy (R147). -/
def execSeReg (x y : Reg) (s : State) : Result := .next (s.skip (s.getV x == s.getV y))

/-- SNE Vx, Vy (R148). -/
def execSneReg (x y : Reg) (s : State) : Result := .next (s.skip (s.getV x != s.getV y))

end Sys2Proof.Machine
end

