-- ==== Sys2Proof/Machine/Display.lean ====
section
/-! DEFINITION. Display and keypad instructions (44_display_keypad.md) and the framebuffer they work on (R35).
Each meaning is P4 and P5 in one (R127, log entry 12). -/

namespace Sys2Proof.Machine

/-- `FB[r][c]` (R35): column c is bit 63 - c of row r (log entry 11). -/
def Frame.pixel (f : Frame) (r : Fin 32) (c : Fin 64) : Bool := (f.get r).getLsbD (63 - c.val)

/-- `FB[r][c] <- 1 - FB[r][c]` (R202). -/
def Frame.flip (f : Frame) (r : Fin 32) (c : Fin 64) : Frame :=
  f.set r.val (f.get r ^^^ BitVec.twoPow 64 (63 - c.val)) r.isLt

/-- FB with every pixel 0 (R201). -/
def Frame.blank : Frame := Vector.replicate 32 0

/-- A draw in progress: the framebuffer, and whether a pixel has gone from 1 to 0 (R202 `coll`). -/
structure Drawing where
  fb : Frame
  hit : Bool
  deriving DecidableEq, Repr

/-- XOR one pixel with 1 (R202). -/
def Drawing.draw (d : Drawing) (r : Fin 32) (c : Fin 64) : Drawing :=
  ⟨d.fb.flip r c, d.hit || d.fb.pixel r c⟩

/-- The leftmost n columns of a sprite row at pixel row r: bit 7 - c of the byte is column x0 + c mod 64 (R202). -/
def Drawing.cols (d : Drawing) (r : Fin 32) (x0 : Nat) (b : Byte) : Nat → Drawing
  | 0 => d
  | n + 1 =>
    if b.getLsbD (7 - n) then (d.cols r x0 b n).draw r (Fin.ofNat 64 (x0 + n)) else d.cols r x0 b n

/-- The first n rows of the sprite at I, `width` columns each: row r is at y0 + r mod 32 (R202, R203). -/
def State.drawRows (s : State) (width x0 y0 : Nat) : Nat → Drawing
  | 0 => ⟨s.fb, false⟩
  | n + 1 =>
    (s.drawRows width x0 y0 n).cols (Fin.ofNat 32 (y0 + n)) x0 (s.byteAt (s.dataAddr n)) width

/-- DRW with a sprite `width` columns wide, SPRITE_COLS in {7, 8} (R202, R203): the records of the row reads,
the framebuffer, VF, one render. -/
def State.drawSprite (width : Nat) (x y : Reg) (n : Nat) (s : State) : State :=
  let d := s.drawRows width (s.getV x).toNat (s.getV y).toNat n
  (((s.noteRun s.i n).setFb d.fb).setFlag d.hit).emit .render

/-- The columns this machine draws: SPRITE_COLS (R203, log entry 9). -/
def drawnCols : Nat := Config.spriteCols

/-- CLS: every pixel 0, the display told (R201). -/
def execCls (s : State) : Result := .next ((s.setFb Frame.blank).emit .clear).advance

/-- DRW Vx, Vy, nibble (R202). -/
def execDrw (x y : Reg) (nibble : BitVec 4) (s : State) : Result :=
  .next (s.drawSprite drawnCols x y nibble.toNat).advance

/-- SKP Vx: skip if HOST says the key is down (R204). -/
def execSkp (x : Reg) (s : State) : Result :=
  .next ((s.noteOperand (s.getV x)).takeKeyDown.skip (s.keyDownAnswer (keyOf (s.getV x))))

/-- SKNP Vx: skip if HOST says the key is up (R205). -/
def execSknp (x : Reg) (s : State) : Result :=
  .next ((s.noteOperand (s.getV x)).takeKeyUp.skip (s.keyUpAnswer (keyOf (s.getV x))))

end Sys2Proof.Machine
end

