-- ==== Sys2Proof/Machine/Load.lean ====
section
/-! DEFINITION. The load family (42_load.md). No load writes VF as a flag (R172). Each meaning is P4 and P5 in
one (R127, log entry 12). -/

namespace Sys2Proof.Machine

/-- LD Vx, byte (R160). -/
def execLdByte (x : Reg) (byte : Byte) (s : State) : Result := .next (s.setV x byte).advance

/-- LD Vx, Vy (R161). -/
def execLdReg (x y : Reg) (s : State) : Result := .next (s.setV x (s.getV y)).advance

/-- LD I, addr (R162). -/
def execLdI (addr : Addr) (s : State) : Result := .next (s.setI (addrWord addr)).advance

/-- LD Vx, DT (R163). -/
def execLdVxDT (x : Reg) (s : State) : Result := .next (s.setV x s.dt).advance

/-- LD DT, Vx (R165). -/
def execLdDTVx (x : Reg) (s : State) : Result := .next (s.setDt (s.getV x)).advance

/-- LD ST, Vx (R166). -/
def execLdSTVx (x : Reg) (s : State) : Result := .next (s.setSt (s.getV x)).advance

/-- LD Vx, K in the explicit form (R128, R164, R30): with HOST's key at the port it finishes; without one it
holds, PC unmoved (log entry 7). -/
def execLdVxK (x : Reg) (s : State) : Result :=
  match s.keyEvent with
  | some k => .next (s.release.setV x (keyByte k)).advance
  | none => .next (s.hold x)

/-- LD F, Vx: the whole register is the glyph index, logged above 15 (R167, D13). -/
def execLdFVx (x : Reg) (s : State) : Result :=
  .next ((s.noteOperand (s.getV x)).setI (glyphAddr (s.getV x))).advance

/-- LD B, Vx: three decimal digits at I, I + 1, I + 2 (R168). -/
def execLdBVx (x : Reg) (s : State) : Result :=
  .next ((((s.memWrite (s.dataAddr 0) (bcdHundreds (s.getV x))).memWrite
    (s.dataAddr 1) (bcdTens (s.getV x))).memWrite
    (s.dataAddr 2) (bcdUnits (s.getV x))).advance)

/-- LD [I], Vx: x + 1 registers, I unchanged (R170, D12). -/
def execLdMemVx (x : Reg) (s : State) : Result := .next (s.storeRegs (x.toNat + 1)).advance

/-- LD Vx, [I]: x + 1 registers, I unchanged (R171, D12). -/
def execLdVxMem (x : Reg) (s : State) : Result := .next (s.loadRegs (x.toNat + 1)).advance

end Sys2Proof.Machine
end

