-- ==== Sys2Proof/Machine/Scheduler.lean ====
section
/-! DEFINITION. The agents' turns (40_scheduler_cycle.md R121, 60_exceptions.md R241, R250, R251), loading a program
(70_reset_and_hazards.md R263, R264), and placing an instruction where the next step fetches it. -/

namespace Sys2Proof.Machine

/-- P2 to P5 of a Running cycle: fetch, decode, execute, advance (R121, R124 to R127). -/
def State.runInstruction (s : State) : Result := exec (decodeWord s.fetchWord) s.noteFetch

/-- One cycle of CORE that no hold is in progress at: P0, then a Paused cycle (R123) or P2 to P5 (R121). -/
def State.cycle (s : State) : Result :=
  if s.samplePause.paused then .next (s.samplePause.emit .pauseOverlay)
  else s.samplePause.runInstruction

/-- CORE's turn: a hold in progress goes on inside P4, with no sampling and no fetch (R122, R128, log entry 15);
otherwise one cycle. -/
def State.coreTurn (s : State) : Result :=
  match s.waitKey with
  | some x => exec (.ldVxK x) s
  | none => s.cycle

/-- HOST delivers a key event: during a hold this is CORE's one step, in which LD Vx, K finishes (R128, R164);
outside a hold the event is ignored (R231). -/
def State.deliverKey (s : State) (k : Key) : Result :=
  match s.waitKey with
  | some x => exec (.ldVxK x) (s.offerKey k)
  | none => .next s

/-- The state with its first fixed turn taken off the agenda (log entry 1). -/
def State.dropTurn (s : State) : State := { s with agenda := s.agenda.tail }

/-- Whose turn is next: the agenda's first, and CORE's when nothing is fixed (R20, R242; log entry 1). -/
def State.nextTurn (s : State) : Turn := s.agenda.headD .core

/-- One turn of an agent (R20). -/
def State.take (s : State) : Turn → Result
  | .core => s.coreTurn
  | .tick => .next s.tick
  | .pauseToggle => .next s.raiseToggle
  | .keyEvent k => s.deliverKey k
  | .stop => .next s.setStop

/-- One step of the machine: nothing once STOP = 1 (R251, log entry 8), else the next turn. -/
def State.oneStep (s : State) : Result :=
  if s.stop then .fault .stopped else s.dropTurn.take s.nextTurn

/-- The bytes of a program in memory from an address on (R263). -/
def Memory.load (m : Memory) (a : Nat) : List Byte → Memory
  | [] => m
  | b :: rest => (m.write a b).load (a + 1) rest

/-- `load(bytes)`, HOST's before the first step (R263, R264): verbatim from ENTRY, at most PROG_MAX bytes. -/
def State.load (bytes : List Byte) (s : State) : Result :=
  if bytes.length ≤ Config.progMax then .next { s with mem := s.mem.load Config.entry.toNat bytes }
  else .refused .programTooLong

/-- MEM with the font and, from 0x050 to 0xFFF, any filling (R265). -/
def filledMemory (fill : Nat → Byte) : Memory :=
  (List.range (4096 - font.length)).foldl (fun m k => m.write (font.length + k) (fill (font.length + k))) []

/-- The state after reset for any MEM_FILL and any contents of STACK (R45, R265, U8, U9). -/
def State.resetWith (fill : Nat → Byte) (entries : Vector Word 16) : State :=
  { State.reset with mem := filledMemory fill, stack := entries }

/-- A word stored where the next fetch reads it, high byte first (R61). -/
def State.placeWord (s : State) (op : Word) : State :=
  (s.pokeByte s.pc (op.extractLsb' 8 8)).pokeByte (s.pc + 1) (op.extractLsb' 0 8)

/-- The machine ready to run an instruction at its next step: not stopped, Running, no toggle pending, no hold,
CORE's turn next. The state after reset is so already (log entry 13). -/
def State.ready (s : State) : State :=
  { s with
    stop := false
    paused := false
    pauseToggle := false
    waitKey := none
    keyEvent := none
    agenda := if s.nextTurn = .core then s.agenda else .core :: s.agenda }

end Sys2Proof.Machine
end

