-- ==== Sys2Proof/Machine/Step.lean ====
section
/-! DEFINITION. The machine's one step. -/

namespace Sys2Proof.Machine

/-- One step: the next turn of CORE, TIMER or HOST (10_state.md R20, 40_scheduler_cycle.md R121). -/
def step (s : State) : Host.Outcome State Fault Refusal := s.oneStep

/-- `s` with the instruction of the table's word `w` where `step` fetches its next instruction (log entry 13). -/
def State.withFetchWord (s : State) (nbits w : Nat) : State := (s.placeWord (tableWord nbits w)).ready

end Sys2Proof.Machine
end

