-- ==== Sys2Proof/Safety.lean ====
section
/-! DEFINITION. The terms claims use: the machine's invariant, a clean run, the end of a run, and what "nothing
else changes" and "logs exactly" mean. -/

namespace Sys2Proof.Machine

/-- Log holds exactly the sticky bits' causes: ANOM[c] is set when and only when LOG has a record of code c
(R31, R221: both are written by `Log` alone and cleared by nothing but reset). -/
def State.LogAgrees (s : State) : Prop := ∀ c, s.anomBit c = s.log.any (·.code == c)

/-- What holds of every state a run reaches from reset. -/
structure State.Inv (s : State) : Prop where
  /-- Memory is in its canonical form. -/
  memory : s.mem.wf = true
  /-- No key event is kept between steps (R128, R231). -/
  key : s.keyEvent = none
  /-- During a hold the machine is Running (R122, R128). -/
  hold : s.waitKey.isSome = true → s.paused = false
  /-- ANOM and LOG agree. -/
  log : s.LogAgrees

/-- A run that rests on none of the behaviours the source leaves undefined: no anomaly so far (R229,
log entry 6). -/
def State.Clean (s : State) : Prop := s.anom = 0

/-- END of a run (R130): Running, no hold, and the word at PC = a is 1NNN with NNN = a. -/
def State.AtEnd (s : State) : Prop :=
  s.paused = false ∧ s.waitKey = none ∧ s.pc.toNat < 0x1000 ∧ s.fetchWord = 0x1000 + s.pc

/-- Nothing but the V registers and PC differs. -/
def State.OnlyRegsPc (s t : State) : Prop := t = { s with v := t.v, pc := t.pc }

/-- Every byte of memory reads as before. -/
def State.SameBytes (s t : State) : Prop := ∀ a : Word, t.byteAt a = s.byteAt a

/-- Every V register but those in `changed` reads as before. -/
def State.SameRegsBut (changed : List Reg) (s t : State) : Prop :=
  ∀ r, r ∉ changed → t.getV r = s.getV r

/-- LOG has grown by exactly `recs`, and ANOM by exactly their codes (R221). -/
def State.Logs (s t : State) (recs : List LogRecord) : Prop :=
  t.log = s.log ++ recs ∧ ∀ c, t.anomBit c = (s.anomBit c || recs.any (·.code == c))

/-- The MEM_RANGE records of byte accesses at `base`, `base` + 1, ..., n of them, addresses mod 2^16
(R64, R66, R67). -/
def accessRecords (base : Word) (n : Nat) : List LogRecord :=
  (((List.range n).map fun k => base + BitVec.ofNat 16 k).filter fun a => 0x1000 ≤ a.toNat).map
    (⟨.memRange, ·⟩)

/-- The OPERAND_RANGE record of a register value, if it is above 15 (R220, R226). -/
def operandRecords (b : Byte) : List LogRecord := if 15 < b.toNat then [⟨.operandRange, byteWord b⟩] else []

/-- The net PC at the end of an instruction's cycle, as the right-hand column of the table of R24 gives it. The
last row is "every instruction not listed". -/
def State.netPc (s : State) : Instr → Word
  | .jp addr => addr.setWidth 16
  | .jpV0 addr => addr.setWidth 16 + (s.getV 0).setWidth 16
  | .call addr => if s.sp.val < 16 then addr.setWidth 16 else s.pc + 2
  | .ret => if s.sp.val = 0 then s.pc + 2 else s.stack.get (Fin.ofNat 16 (s.sp.val - 1))
  | .seByte x k => if s.getV x = k then s.pc + 4 else s.pc + 2
  | .sneByte x k => if s.getV x = k then s.pc + 2 else s.pc + 4
  | .seReg x y => if s.getV x = s.getV y then s.pc + 4 else s.pc + 2
  | .sneReg x y => if s.getV x = s.getV y then s.pc + 2 else s.pc + 4
  | .skp x => if s.keyDownAnswer ((s.getV x).setWidth 4) then s.pc + 4 else s.pc + 2
  | .sknp x => if s.keyUpAnswer ((s.getV x).setWidth 4) then s.pc + 4 else s.pc + 2
  | .ldVxK _ => if s.keyEvent = none then s.pc else s.pc + 2
  | _ => s.pc + 2

/-- A sprite of n rows from memory at I, `width` columns wide, drawn at column x0 and row y0, has a 1 bit that
falls on pixel (r, c), coordinates mod 32 and 64 (R202, R203). -/
def State.SpriteCovers (s : State) (width x0 y0 n : Nat) (r : Fin 32) (c : Fin 64) : Prop :=
  ∃ k < n, ∃ j < width, (y0 + k) % 32 = r.val ∧ (x0 + j) % 64 = c.val ∧
    (s.byteAt (s.dataAddr k)).getLsbD (7 - j) = true

end Sys2Proof.Machine
end

