-- ==== Sys2Proof/WellFormed.lean ====
section
/-! DEFINITION. Which terms of Instr are instructions: those some word decodes to (30_encoding.md R94, R97). -/

namespace Sys2Proof

/-- The words that match no known pattern, by the table of R97 (not by the decoder's rows). -/
def isUnknownWord (op : Word) : Bool :=
  let nibble := op.extractLsb' 0 4
  let byte := op.extractLsb' 0 8
  match (op.extractLsb' 12 4).toNat with
  | 0x5 => nibble != 0x0
  | 0x8 => [0x8, 0x9, 0xA, 0xB, 0xC, 0xD, 0xF].contains nibble
  | 0x9 => nibble != 0x0
  | 0xE => !([0x9E, 0xA1].contains byte)
  | 0xF => !([0x07, 0x0A, 0x15, 0x18, 0x1E, 0x29, 0x33, 0x55, 0x65].contains byte)
  | _ => false

/-- A SYS is not one of the two exact words of group 0 that stand before it (R94 rows 1 to 3), and the
fallback holds a word no known pattern matches (R97); the operand types bound every other field. -/
def Instr.wellFormed : Instr → Bool
  | .sys addr => addr != 0x0E0 && addr != 0x0EE
  | .unknown op => isUnknownWord op
  | .cls | .ret | .jp _ | .call _ | .seByte _ _ | .sneByte _ _ | .seReg _ _ | .ldByte _ _
  | .addByte _ _ | .ldReg _ _ | .orReg _ _ | .andReg _ _ | .xorReg _ _ | .addReg _ _ | .sub _ _
  | .shr _ _ | .subn _ _ | .shl _ _ | .sneReg _ _ | .ldI _ | .jpV0 _ | .rnd _ _ | .drw _ _ _
  | .skp _ | .sknp _ | .ldVxDT _ | .ldVxK _ | .ldDTVx _ | .ldSTVx _ | .addIVx _ | .ldFVx _
  | .ldBVx _ | .ldMemVx _ | .ldVxMem _ => true

end Sys2Proof
end

