-- ==== Sys2Proof/Certificates/Slice0/Obligations.lean ====
section
/-! DEFINITION. The statements for the provers, from the numbered rules of spec/. A docstring names the rule, and
the spec's own decision (D<n> of 92_eei_decisions.md) or the log entry where a clause rests on one. -/

open Sys2Proof Sys2Proof.Machine

/-! ### Encoding (30_encoding.md) -/

/-- Every well-formed instruction, each operand at every value, is what the decoder reads from its bytes, whatever
follows them (R90, R91, R94; the bit patterns are the spec's decision D1). -/
def Obligations.DecodeOfEncodedInstruction : Prop :=
  ∀ (i : Instr) (rest : List Byte), i.wellFormed = true → decode (encodeBytes i ++ rest) = .ok (i, rest)

/-- Every one of the 65536 words decodes to a well-formed instruction, which encodes back to it: no bit of a word
is dropped (R93; patterns D1). -/
def Obligations.EveryWordDecodesAndEncodesBack : Prop :=
  ∀ op : Word, (decodeWord op).wellFormed = true ∧ encode (decodeWord op) = op

/-- The decode vectors E1 to E20 of 95_test_vectors.md, words of every group that has a row or a hole. -/
def Obligations.SpecVectorsDecode : Prop :=
  decodeWord 0x6A0F = .ldByte 0xA 0x0F ∧ decodeWord 0xD125 = .drw 1 2 5 ∧ decodeWord 0x00E0 = .cls ∧
  decodeWord 0x00EE = .ret ∧ decodeWord 0x00E1 = .sys 0x0E1 ∧ decodeWord 0x01E0 = .sys 0x1E0 ∧
  decodeWord 0x0000 = .sys 0x000 ∧ decodeWord 0x8AB6 = .shr 0xA 0xB ∧ decodeWord 0x8AB8 = .unknown 0x8AB8 ∧
  decodeWord 0x5AB0 = .seReg 0xA 0xB ∧ decodeWord 0x5AB1 = .unknown 0x5AB1 ∧
  decodeWord 0x9AB0 = .sneReg 0xA 0xB ∧ decodeWord 0x9ABF = .unknown 0x9ABF ∧ decodeWord 0xE19E = .skp 1 ∧
  decodeWord 0xE1A1 = .sknp 1 ∧ decodeWord 0xE19F = .unknown 0xE19F ∧ decodeWord 0xF11E = .addIVx 1 ∧
  decodeWord 0xF165 = .ldVxMem 1 ∧ decodeWord 0xF175 = .unknown 0xF175 ∧ decodeWord 0xBFFF = .jpV0 0xFFF

/-- Two rows of the opcode map accept one word only where the second is SYS and the first is CLS or RET, the two
exact rows that stand before it (R94, derived there from the masks; patterns D1). -/
def Obligations.OpcodeRowsOverlapOnlyAtSys : Prop :=
  ∀ (op : Word) (j k : Nat) (r q : OpcodeRow), j < k → opcodeRows[j]? = some r → opcodeRows[k]? = some q →
    r.accepts op = true → q.accepts op = true →
      q.mnemonic = "SYS_addr" ∧ (op = 0x00E0 ∧ r.mnemonic = "CLS" ∨ op = 0x00EE ∧ r.mnemonic = "RET")

/-- The words that decode to NOP.UNKNOWN are exactly those of the table of R97, and each keeps its own word for the
record (R97, R141; patterns D1). -/
def Obligations.UnknownWordsAreThoseOfTheTable : Prop :=
  ∀ op : Word, (isUnknownWord op = true → decodeWord op = .unknown op) ∧
    (isUnknownWord op = false → ∀ w, decodeWord op ≠ .unknown w)

/-- The six fields of an instruction word, and how they overlap (R8). -/
def Obligations.FieldsOfAWord : Prop :=
  ∀ op : Word,
    (fieldGroup op).toNat = op.toNat / 4096 ∧
    (fieldX op).toNat = op.toNat / 256 % 16 ∧
    (fieldY op).toNat = op.toNat / 16 % 16 ∧
    (fieldNibble op).toNat = op.toNat % 16 ∧
    (fieldByte op).toNat = op.toNat % 256 ∧
    (fieldAddr op).toNat = op.toNat % 4096 ∧
    fieldAddr op = fieldX op ++ fieldY op ++ fieldNibble op ∧
    fieldByte op = fieldY op ++ fieldNibble op

/-! ### The cycle, the agents and the end of a run (40_scheduler_cycle.md, 60_exceptions.md) -/

/-- On CORE's turn, not stopped, no hold in progress, and Running once the toggle is sampled, `step` is `exec` of
the instruction the two bytes at PC decode to, at the state in which the turn is taken, the toggle is sampled and
the fetch has left its records; `exec` holds P4 and P5 (R121, R122, R124, R125, R127). -/
def Obligations.StepRunsTheDecodedInstruction : Prop :=
  ∀ (s : State) (i : Instr) (rest : List Byte), s.stop = false → s.nextTurn = .core → s.waitKey = none →
    s.paused = s.pauseToggle → decode [s.byteAt s.pc, s.byteAt (s.pc + 1)] = .ok (i, rest) →
      step s = exec i s.dropTurn.samplePause.noteFetch

/-- The fetch is big-endian: the byte at PC is bits 15 to 8 of the word, the byte at PC + 1 (mod 2^16) bits
7 to 0, the accesses being made in that order (R61); with the rule's example. -/
def Obligations.FetchIsBigEndian : Prop :=
  (∀ s : State, (s.fetchWord).extractLsb' 8 8 = s.byteAt s.pc ∧
    (s.fetchWord).extractLsb' 0 8 = s.byteAt (s.pc + 1) ∧
    s.noteFetch = (s.noteAccess s.pc).noteAccess (s.pc + 1)) ∧
  ∀ s : State, s.pc = 0x200 → s.byteAt 0x200 = 0x6A → s.byteAt 0x201 = 0x0F → s.fetchWord = 0x6A0F ∧
    fieldGroup s.fetchWord = 6 ∧ fieldX s.fetchWord = 0xA ∧ fieldByte s.fetchWord = 0x0F

/-- The fetch leaves a MEM_RANGE record for each of its two addresses at or above 0x1000, the high byte's first,
and changes nothing else: none below 0x0FFF, one at 0x0FFF (the low byte's) and at 0xFFFF (the high byte's), two
between (R62, R124; the reduction and the record are decision D6). -/
def Obligations.FetchLogsOutOfRangeBytes : Prop :=
  ∀ s : State, s.noteFetch = { s with anom := s.noteFetch.anom, log := s.noteFetch.log } ∧
    s.Logs s.noteFetch
      (if s.pc.toNat < 0x0FFF then []
       else if s.pc.toNat = 0x0FFF then [⟨.memRange, 0x1000⟩]
       else if s.pc.toNat = 0xFFFF then [⟨.memRange, 0xFFFF⟩]
       else [⟨.memRange, s.pc⟩, ⟨.memRange, s.pc + 1⟩])

/-- A Paused cycle emits the pause overlay and changes no machine state; ticks do not decrement while PAUSED; and
PAUSED is left only by a later cycle that samples a toggle (R123). -/
def Obligations.PausedCycleMutatesNothing : Prop :=
  (∀ s : State, s.stop = false → s.nextTurn = .core → s.waitKey = none → s.paused ≠ s.pauseToggle →
    step s = .next { s with
      agenda := s.agenda.tail
      paused := true
      pauseToggle := false
      display := s.display ++ [.pauseOverlay] }) ∧
  (∀ s : State, s.stop = false → s.nextTurn = .tick → s.paused = true →
    step s = .next { s with agenda := s.agenda.tail }) ∧
  ∀ s t : State, step s = .next t → s.paused = true → t.paused = false →
    s.nextTurn = .core ∧ s.waitKey = none ∧ s.pauseToggle = true

/-- No step changes PAUSED but a cycle of CORE that samples a pending toggle with no hold in progress, and that step
clears the toggle; HOST's turn that raises the toggle changes nothing else, PAUSED included (R122, R29, R231, R250;
where the sample is taken is decision D21; that the order of the turns is the agenda is log entry 1). -/
def Obligations.PauseChangesOnlyAtTheTopOfACycle : Prop :=
  (∀ s t : State, step s = .next t → t.paused ≠ s.paused →
    s.nextTurn = .core ∧ s.waitKey = none ∧ s.pauseToggle = true ∧ t.pauseToggle = false) ∧
  ∀ s : State, s.stop = false → s.nextTurn = .pauseToggle →
    step s = .next { s with pauseToggle := true, agenda := s.agenda.tail }

/-- A tick while Running decrements DT and ST, each saturating at zero, and touches nothing else (R241; one step for
both is decision D23). -/
def Obligations.TickDecrementsBothTimers : Prop :=
  ∀ s : State, s.stop = false → s.nextTurn = .tick → s.paused = false →
    ∃ t, step s = .next t ∧ t.dt.toNat = s.dt.toNat - 1 ∧ t.st.toNat = s.st.toNat - 1 ∧
      t = { s with dt := t.dt, st := t.st, agenda := s.agenda.tail }

/-- n ticks in a row, while Running, bring a timer of value v to v - n, and leave it at 0 from the v-th on: no
underflow (R241, R280; the source's timer decay boundary, S7). The turns are the model's agenda, log entry 1. -/
def Obligations.TimersReachZeroAndStay : Prop :=
  ∀ (n : Nat) (s : State) (rest : List Turn), s.stop = false → s.paused = false →
    s.agenda = List.replicate n .tick ++ rest →
      ∃ t : State, Sys2Proof.core.run n s = .next t ∧ t.dt.toNat = s.dt.toNat - n ∧ t.st.toNat = s.st.toNat - n ∧
        t = { s with dt := t.dt, st := t.st, agenda := rest }

/-- A step stops when STOP = 1 and in no other case: no instruction in any state faults or is refused, and
neither does a tick, a paused cycle or a move of HOST. HOST's turn that sets STOP changes nothing else, and no other
turn sets it (R126, R230, R250, R251; that the stopped machine answers a fault is log entry 8, that the order of the
turns is the agenda log entry 1). -/
def Obligations.StepStopsExactlyWhenStopped : Prop :=
  (∀ s : State, s.stop = true → step s = .fault .stopped) ∧
  (∀ s : State, s.stop = false → ∃ t, step s = .next t) ∧
  (∀ s : State, s.stop = false → s.nextTurn = .stop →
    step s = .next { s with stop := true, agenda := s.agenda.tail }) ∧
  (∀ s t : State, step s = .next t → s.nextTurn ≠ .stop → t.stop = false) ∧
  ∀ (i : Instr) (s : State), ∃ t, exec i s = .next t

/-- During a hold CORE's turn changes nothing but the turn taken: the pause toggle is not sampled and no word is
fetched. HOST's key event k finishes the instruction in that one step: k to the register, PC + 2, the hold over, nothing
else changed. Outside a hold a key event is ignored. STOP right after the key finds the instruction finished; STOP
before a key leaves it unfinished with PC at the FX0A (R128, R164, R122, R231, R251; the explicit form is decision D22
and log entry 7, CORE's turn in a hold log entry 15). -/
def Obligations.HoldRunsNothingUntilAKeyArrives : Prop :=
  (∀ (s : State) (x : Reg), s.stop = false → s.waitKey = some x →
    (s.nextTurn = .core → s.keyEvent = none → step s = .next { s with agenda := s.agenda.tail }) ∧
    (∀ k, s.nextTurn = .keyEvent k → ∃ t, step s = .next t ∧ (t.getV x).toNat = k.toNat ∧ s.SameRegsBut [x] t ∧
      t.pc = s.pc + 2 ∧
      t = { s with v := t.v, pc := t.pc, waitKey := none, keyEvent := none, agenda := s.agenda.tail }) ∧
    (∀ k rest, s.agenda = .keyEvent k :: .stop :: rest → ∃ t : State, Sys2Proof.core.run 2 s = .next t ∧
      (t.getV x).toNat = k.toNat ∧ t.pc = s.pc + 2 ∧ t.waitKey = none ∧ t.stop = true) ∧
    (∀ rest, s.agenda = .stop :: rest → ∃ t : State, Sys2Proof.core.run 1 s = .next t ∧ t.v = s.v ∧ t.pc = s.pc ∧
      t.waitKey = some x ∧ step t = .fault .stopped)) ∧
  ∀ (s : State) (k : Key), s.stop = false → s.nextTurn = .keyEvent k → s.waitKey = none →
    step s = .next { s with agenda := s.agenda.tail }

/-- The whole key-wait in steps: CORE fetches FX0A and holds at it, TIMER ticks n times, HOST delivers key k, which
finishes it. Then V[x] = k, the timers have decayed by n, PC is at the next instruction and nothing else is different
(R128, R164; vector KW1; the turns are the model's agenda, log entries 1 and 7). -/
def Obligations.KeyWaitFromFetchToKey : Prop :=
  ∀ (s : State) (x : Reg) (n : Nat) (k : Key) (rest : List Turn), s.stop = false → s.waitKey = none →
    s.keyEvent = none → s.paused = false → s.pauseToggle = false → s.pc.toNat < 0x0FFF →
    s.fetchWord = encode (.ldVxK x) →
    s.agenda = .core :: (List.replicate n .tick ++ .keyEvent k :: rest) →
      ∃ t : State, Sys2Proof.core.run (n + 2) s = .next t ∧ (t.getV x).toNat = k.toNat ∧ s.SameRegsBut [x] t ∧
        t.dt.toNat = s.dt.toNat - n ∧ t.st.toNat = s.st.toNat - n ∧ t.pc = s.pc + 2 ∧
        t = { s with v := t.v, dt := t.dt, st := t.st, pc := t.pc, agenda := rest }

/-- At END every cycle leaves the state as it is but for the turn taken (R130, decision D26). At address 0xFFF the
fetch also leaves its MEM_RANGE record (R62), so the claim is for END below it. -/
def Obligations.EndIsAFixedPoint : Prop :=
  ∀ s : State, s.AtEnd → s.pc.toNat < 0x0FFF → s.stop = false → s.pauseToggle = false → s.nextTurn = .core →
    step s = .next s.dropTurn

/-- A word placed where the next step fetches is the one the next step runs, whatever the state was (the model's
own `withFetchWord`, log entry 13; R61, R121). -/
def Obligations.PlacedWordIsTheNextToRun : Prop :=
  ∀ (s : State) (op : Word), step (s.withFetchWord 16 op.toNat) =
    exec (decodeWord op) (s.withFetchWord 16 op.toNat).dropTurn.noteFetch

/-! ### Control transfer (41_control_transfer.md) -/

/-- The two no-ops: SYS changes nothing but PC and is not logged; NOP.UNKNOWN leaves one DECODE_UNKNOWN record of the
word, sets ANOM[1] and advances (R140, R141, R221, R222; decisions D20, D24). -/
def Obligations.NoOpsOnlyAdvanceOrLog : Prop :=
  (∀ (addr : Addr) (s : State), exec (.sys addr) s = .next { s with pc := s.pc + 2 }) ∧
  ∀ (op : Word) (s : State), ∃ t, exec (.unknown op) s = .next t ∧ t.pc = s.pc + 2 ∧
    s.Logs t [⟨.decodeUnknown, op⟩] ∧ s.SameBytes t ∧ t = { s with pc := t.pc, anom := t.anom, log := t.log }

/-- JP reaches addr, and JP V0 the 16-bit sum addr + V0, which never wraps; nothing else changes (R143, R150, R24;
V0 is decision D18). -/
def Obligations.JumpsReachTheirTargets : Prop :=
  ∀ (addr : Addr) (s : State),
    (∃ t, exec (.jp addr) s = .next t ∧ t.pc.toNat = addr.toNat ∧ t = { s with pc := t.pc }) ∧
    ∃ t, exec (.jpV0 addr) s = .next t ∧ t.pc.toNat = addr.toNat + (s.getV 0).toNat ∧ t = { s with pc := t.pc }

/-- CALL pushes pc0 + 2 and goes to addr while fewer than 16 addresses are live, the sixteenth included; with 16 live
it is a no-op with a STACK_OVERFLOW record of pc0 (R144, R223; decisions D3, D4, D5). -/
def Obligations.CallPushesOrIsALoggedNoOp : Prop :=
  ∀ (addr : Addr) (s : State),
    (∀ h : s.sp.val < 16, ∃ t, exec (.call addr) s = .next t ∧ t.pc.toNat = addr.toNat ∧
      t.sp.val = s.sp.val + 1 ∧ t.stack.get ⟨s.sp.val, h⟩ = s.pc + 2 ∧
      (∀ k : Fin 16, k.val ≠ s.sp.val → t.stack.get k = s.stack.get k) ∧ s.SameBytes t ∧
      t = { s with stack := t.stack, sp := t.sp, pc := t.pc }) ∧
    (s.sp.val = 16 → ∃ t, exec (.call addr) s = .next t ∧ t.pc = s.pc + 2 ∧
      s.Logs t [⟨.stackOverflow, s.pc⟩] ∧ t = { s with pc := t.pc, anom := t.anom, log := t.log })

/-- RET goes to the newest live entry and leaves the entry in the array; with none live it is a no-op with a
STACK_UNDERFLOW record of pc0 (R142, R223; decisions D3, D5). -/
def Obligations.RetPopsOrIsALoggedNoOp : Prop :=
  ∀ s : State,
    (∀ k : Fin 16, s.sp.val = k.val + 1 → ∃ t, exec .ret s = .next t ∧ t.sp.val = k.val ∧
      t.pc = s.stack.get k ∧ s.SameBytes t ∧ t = { s with sp := t.sp, pc := t.pc }) ∧
    (s.sp.val = 0 → ∃ t, exec .ret s = .next t ∧ t.pc = s.pc + 2 ∧ s.Logs t [⟨.stackUnderflow, s.pc⟩] ∧
      t = { s with pc := t.pc, anom := t.anom, log := t.log })

/-- Call and return pair: a RET in any state that has the stack and SP the CALL left resumes at the instruction after
the CALL, with SP as before it, for every addr and every depth below 16 (R142, derived there; S8). -/
def Obligations.ReturnResumesAfterTheCall : Prop :=
  ∀ (addr : Addr) (s : State), s.sp.val < 16 → ∃ t, exec (.call addr) s = .next t ∧
    ∀ u : State, u.stack = t.stack → u.sp = t.sp →
      ∃ w, exec .ret u = .next w ∧ w.pc = s.pc + 2 ∧ w.sp = s.sp

/-- The four compares skip one instruction, two bytes, exactly when their condition holds, and change nothing but PC;
x = y always skips for SE and never for SNE (R145, R146, R147, R148, R149). -/
def Obligations.ComparesSkipExactlyOnTheirCondition : Prop :=
  ∀ (x y : Reg) (k : Byte) (s : State),
    exec (.seByte x k) s = .next { s with pc := if (s.getV x).toNat = k.toNat then s.pc + 4 else s.pc + 2 } ∧
    exec (.sneByte x k) s = .next { s with pc := if (s.getV x).toNat = k.toNat then s.pc + 2 else s.pc + 4 } ∧
    exec (.seReg x y) s =
      .next { s with pc := if (s.getV x).toNat = (s.getV y).toNat then s.pc + 4 else s.pc + 2 } ∧
    exec (.sneReg x y) s =
      .next { s with pc := if (s.getV x).toNat = (s.getV y).toNat then s.pc + 2 else s.pc + 4 } ∧
    exec (.seReg x x) s = .next { s with pc := s.pc + 4 } ∧ exec (.sneReg x x) s = .next { s with pc := s.pc + 2 }

/-! ### Loads (42_load.md) -/

/-- LD Vx, byte and LD Vx, Vy write V[x], VF as any other register, and change nothing but V[x] and PC
(R160, R161, R172). -/
def Obligations.RegisterLoadsWriteVx : Prop :=
  ∀ (x y : Reg) (k : Byte) (s : State),
    (∃ t, exec (.ldByte x k) s = .next t ∧ t.getV x = k ∧ s.SameRegsBut [x] t ∧ t.pc = s.pc + 2 ∧
      s.SameBytes t ∧ s.OnlyRegsPc t) ∧
    ∃ t, exec (.ldReg x y) s = .next t ∧ t.getV x = s.getV y ∧ s.SameRegsBut [x] t ∧ t.pc = s.pc + 2 ∧
      s.SameBytes t ∧ s.OnlyRegsPc t

/-- LD Vx, DT reads DT; LD DT, Vx and LD ST, Vx write their timer; TONE follows ST; nothing else changes
(R163, R165, R166). -/
def Obligations.TimerLoadsMoveOneTimer : Prop :=
  ∀ (x : Reg) (s : State),
    (∃ t, exec (.ldVxDT x) s = .next t ∧ t.getV x = s.dt ∧ s.SameRegsBut [x] t ∧ t.pc = s.pc + 2 ∧
      s.SameBytes t ∧ s.OnlyRegsPc t) ∧
    exec (.ldDTVx x) s = .next { s with dt := s.getV x, pc := s.pc + 2 } ∧
    ∃ t, exec (.ldSTVx x) s = .next t ∧ t = { s with st := s.getV x, pc := s.pc + 2 } ∧
      (t.tone = true ↔ 0 < (s.getV x).toNat)

/-- LD I, addr; ADD I, Vx with its 16-bit wrap; LD F, Vx with the whole register as glyph index and an OPERAND_RANGE
record above 15: each writes I and no V register (R162, R184, R167; decisions D11, D13, D19). -/
def Obligations.IndexWritersWriteOnlyI : Prop :=
  ∀ (x : Reg) (addr : Addr) (s : State),
    (∃ t, exec (.ldI addr) s = .next t ∧ t.i.toNat = addr.toNat ∧ t = { s with i := t.i, pc := s.pc + 2 }) ∧
    (∃ t, exec (.addIVx x) s = .next t ∧ t.i.toNat = (s.i.toNat + (s.getV x).toNat) % 65536 ∧
      t = { s with i := t.i, pc := s.pc + 2 }) ∧
    ∃ t, exec (.ldFVx x) s = .next t ∧ t.i.toNat = 5 * (s.getV x).toNat ∧
      s.Logs t (operandRecords (s.getV x)) ∧ s.SameBytes t ∧
      t = { s with i := t.i, pc := s.pc + 2, anom := t.anom, log := t.log }

/-- LD Vx, K with HOST's key at the port completes: V[x] = k, PC + 2, the hold is over. Without one it holds: PC
stays and nothing else changes (R164, R128; the explicit form is decision D22 and log entry 7). -/
def Obligations.KeyLoadCompletesOrHolds : Prop :=
  ∀ (x : Reg) (s : State),
    (∀ k, s.keyEvent = some k → ∃ t, exec (.ldVxK x) s = .next t ∧ (t.getV x).toNat = k.toNat ∧
      s.SameRegsBut [x] t ∧ t.pc = s.pc + 2 ∧ s.SameBytes t ∧
      t = { s with v := t.v, pc := t.pc, waitKey := none, keyEvent := none }) ∧
    (s.keyEvent = none → exec (.ldVxK x) s = .next { s with waitKey := some x })

/-- LD B, Vx stores the three decimal digits at I, I + 1, I + 2 mod 2^16, in range or reduced mod 4096 with a record
each; every other byte reads as before, I and the registers are unchanged (R168, R67; decision D6). -/
def Obligations.BcdStoresThreeDigits : Prop :=
  ∀ (x : Reg) (s : State), ∃ t, exec (.ldBVx x) s = .next t ∧
    (t.byteAt (s.dataAddr 0)).toNat = (s.getV x).toNat / 100 ∧
    (t.byteAt (s.dataAddr 1)).toNat = (s.getV x).toNat / 10 % 10 ∧
    (t.byteAt (s.dataAddr 2)).toNat = (s.getV x).toNat % 10 ∧
    (∀ a : Word, (∀ k < 3, a.toNat % 4096 ≠ (s.dataAddr k).toNat % 4096) → t.byteAt a = s.byteAt a) ∧
    s.Logs t (accessRecords s.i 3) ∧
    t = { s with mem := t.mem, pc := s.pc + 2, anom := t.anom, log := t.log }

/-- LD [I], Vx stores V0 to Vx at I to I + x mod 2^16, in range or reduced mod 4096 with a record each; every other
byte reads as before, I and the registers are unchanged (R170, R67; decisions D6, D12). -/
def Obligations.BlockStoreWritesV0ToVx : Prop :=
  ∀ (x : Reg) (s : State), ∃ t, exec (.ldMemVx x) s = .next t ∧
    (∀ r : Reg, r.toNat ≤ x.toNat → t.byteAt (s.dataAddr r.toNat) = s.getV r) ∧
    (∀ a : Word, (∀ k ≤ x.toNat, a.toNat % 4096 ≠ (s.dataAddr k).toNat % 4096) → t.byteAt a = s.byteAt a) ∧
    s.Logs t (accessRecords s.i (x.toNat + 1)) ∧
    t = { s with mem := t.mem, pc := s.pc + 2, anom := t.anom, log := t.log }

/-- LD Vx, [I] loads V0 to Vx from I to I + x mod 2^16 and leaves the registers above Vx, I and every byte of memory
(R171, R66; decisions D6, D12). -/
def Obligations.BlockLoadReadsV0ToVx : Prop :=
  ∀ (x : Reg) (s : State), ∃ t, exec (.ldVxMem x) s = .next t ∧
    (∀ r : Reg, r.toNat ≤ x.toNat → t.getV r = s.byteAt (s.dataAddr r.toNat)) ∧
    (∀ r : Reg, x.toNat < r.toNat → t.getV r = s.getV r) ∧ s.SameBytes t ∧
    s.Logs t (accessRecords s.i (x.toNat + 1)) ∧
    t = { s with v := t.v, pc := s.pc + 2, anom := t.anom, log := t.log }

/-- Block store then block load from the same I gives V0 to Vx back, whatever has become of the registers in between,
for every I, the top of memory included (R171, derived there; S9). -/
def Obligations.BlockStoreThenLoadRoundTrip : Prop :=
  ∀ (x : Reg) (s : State), ∃ t, exec (.ldMemVx x) s = .next t ∧
    ∀ u : State, u.mem = t.mem → u.i = s.i →
      ∃ w, exec (.ldVxMem x) u = .next w ∧ ∀ r : Reg, r.toNat ≤ x.toNat → w.getV r = s.getV r

/-! ### Arithmetic, logic, shifts, random (43_arith_logic.md) -/

/-- ADD Vx, byte wraps at 256 and writes no flag: VF changes only as x = 15, as data (R180, R186; decision D11). -/
def Obligations.AddByteWrapsWithoutFlag : Prop :=
  ∀ (x : Reg) (k : Byte) (s : State), ∃ t, exec (.addByte x k) s = .next t ∧
    (t.getV x).toNat = ((s.getV x).toNat + k.toNat) % 256 ∧ s.SameRegsBut [x] t ∧ t.pc = s.pc + 2 ∧
    s.SameBytes t ∧ s.OnlyRegsPc t

/-- OR, AND and XOR act on each bit of V[x] and write no flag (R181, R182, R185; decision D11). -/
def Obligations.LogicActsOnEachBit : Prop :=
  ∀ (x y : Reg) (s : State),
    (∃ t, exec (.orReg x y) s = .next t ∧
      (∀ j < 8, (t.getV x).getLsbD j = ((s.getV x).getLsbD j || (s.getV y).getLsbD j)) ∧
      s.SameRegsBut [x] t ∧ t.pc = s.pc + 2 ∧ s.SameBytes t ∧ s.OnlyRegsPc t) ∧
    (∃ t, exec (.andReg x y) s = .next t ∧
      (∀ j < 8, (t.getV x).getLsbD j = ((s.getV x).getLsbD j && (s.getV y).getLsbD j)) ∧
      s.SameRegsBut [x] t ∧ t.pc = s.pc + 2 ∧ s.SameBytes t ∧ s.OnlyRegsPc t) ∧
    ∃ t, exec (.xorReg x y) s = .next t ∧
      (∀ j < 8, (t.getV x).getLsbD j = ((s.getV x).getLsbD j ^^ (s.getV y).getLsbD j)) ∧
      s.SameRegsBut [x] t ∧ t.pc = s.pc + 2 ∧ s.SameBytes t ∧ s.OnlyRegsPc t

/-- ADD Vx, Vy: the sum mod 256 in V[x] and the carry of the untruncated sum in VF, from the registers as they were;
with x = 15 VF ends as the flag (R183, R187; the order of the two writes is decision D10). -/
def Obligations.AddSetsCarry : Prop :=
  ∀ (x y : Reg) (s : State), ∃ t, exec (.addReg x y) s = .next t ∧
    t.getV VF = (if 255 < (s.getV x).toNat + (s.getV y).toNat then 1 else 0) ∧
    (x ≠ VF → (t.getV x).toNat = ((s.getV x).toNat + (s.getV y).toNat) % 256) ∧
    s.SameRegsBut [x, VF] t ∧ t.pc = s.pc + 2 ∧ s.SameBytes t ∧ s.OnlyRegsPc t

/-- SUB is V[x] - V[y] and SUBN V[y] - V[x], both into V[x] mod 256; VF is 1 when no borrow occurs; with x = 15 VF ends
as the flag (R188, R190, R187; decision D10). -/
def Obligations.SubtractsSetNoBorrow : Prop :=
  ∀ (x y : Reg) (s : State),
    (∃ t, exec (.sub x y) s = .next t ∧
      t.getV VF = (if (s.getV y).toNat ≤ (s.getV x).toNat then 1 else 0) ∧
      (x ≠ VF → (t.getV x).toNat = ((s.getV x).toNat + 256 - (s.getV y).toNat) % 256) ∧
      s.SameRegsBut [x, VF] t ∧ t.pc = s.pc + 2 ∧ s.SameBytes t ∧ s.OnlyRegsPc t) ∧
    ∃ t, exec (.subn x y) s = .next t ∧
      t.getV VF = (if (s.getV x).toNat ≤ (s.getV y).toNat then 1 else 0) ∧
      (x ≠ VF → (t.getV x).toNat = ((s.getV y).toNat + 256 - (s.getV x).toNat) % 256) ∧
      s.SameRegsBut [x, VF] t ∧ t.pc = s.pc + 2 ∧ s.SameBytes t ∧ s.OnlyRegsPc t

/-- SHR halves V[x] and puts the old bit 0 in VF, SHL doubles it mod 256 and puts the old bit 7 there; the y field
takes no part; with x = 15 VF ends as the flag (R189, R191, R98, R278, R187; decision D10). -/
def Obligations.ShiftsMoveVxByOneAndIgnoreY : Prop :=
  ∀ (x y : Reg) (s : State),
    (∃ t, exec (.shr x y) s = .next t ∧ (t.getV VF).toNat = (s.getV x).toNat % 2 ∧
      (x ≠ VF → (t.getV x).toNat = (s.getV x).toNat / 2) ∧
      s.SameRegsBut [x, VF] t ∧ t.pc = s.pc + 2 ∧ s.SameBytes t ∧ s.OnlyRegsPc t) ∧
    ∃ t, exec (.shl x y) s = .next t ∧ (t.getV VF).toNat = (s.getV x).toNat / 128 ∧
      (x ≠ VF → (t.getV x).toNat = (s.getV x).toNat * 2 % 256) ∧
      s.SameRegsBut [x, VF] t ∧ t.pc = s.pc + 2 ∧ s.SameBytes t ∧ s.OnlyRegsPc t

/-- RND puts HOST's random byte AND the immediate in V[x], for every byte HOST answers, and writes no flag; one answer
is used up. The byte is a free value where HOST has given none (R196; log entry 2). -/
def Obligations.RandomIsMasked : Prop :=
  ∀ (x : Reg) (k : Byte) (s : State), ∃ t, exec (.rnd x k) s = .next t ∧
    t.getV x = s.randAnswer &&& k ∧ (∀ r rest, s.randIn = r :: rest → t.getV x = r &&& k) ∧
    (k = 0 → t.getV x = 0) ∧ s.SameRegsBut [x] t ∧ t.pc = s.pc + 2 ∧ s.SameBytes t ∧
    t = { s with v := t.v, pc := t.pc, randIn := s.randIn.tail, draws := s.draws + 1 }

/-! ### Display and keypad (44_display_keypad.md) -/

/-- CLS turns every pixel off and tells the display; nothing else changes (R201; decision D17). -/
def Obligations.ClearTurnsEveryPixelOff : Prop :=
  ∀ s : State, ∃ t, exec .cls s = .next t ∧ (∀ r c, t.fb.pixel r c = false) ∧ s.SameBytes t ∧
    t = { s with fb := t.fb, display := s.display ++ [.clear], pc := s.pc + 2 }

/-- DRW flips exactly the pixels an 8-column sprite of `nibble` rows covers, wrapping at both edges; VF is 1 when a
covered pixel was on, else 0; row reads at 0x1000 or above are logged; one render is emitted (R202, R203, R66;
bit order and VF = 0 are decision D16, eight columns D15, the render D17). -/
def Obligations.DrawFlipsExactlyTheCoveredPixels : Prop :=
  ∀ (x y : Reg) (n : BitVec 4) (s : State), ∃ t, exec (.drw x y n) s = .next t ∧
    (∀ r c, s.SpriteCovers 8 (s.getV x).toNat (s.getV y).toNat n.toNat r c →
      t.fb.pixel r c = !s.fb.pixel r c) ∧
    (∀ r c, ¬ s.SpriteCovers 8 (s.getV x).toNat (s.getV y).toNat n.toNat r c →
      t.fb.pixel r c = s.fb.pixel r c) ∧
    ((∃ r c, s.SpriteCovers 8 (s.getV x).toNat (s.getV y).toNat n.toNat r c ∧ s.fb.pixel r c = true) →
      t.getV VF = 1) ∧
    ((∀ r c, s.SpriteCovers 8 (s.getV x).toNat (s.getV y).toNat n.toNat r c → s.fb.pixel r c = false) →
      t.getV VF = 0) ∧
    s.SameRegsBut [VF] t ∧ s.SameBytes t ∧ s.Logs t (accessRecords s.i n.toNat) ∧
    t = { s with v := t.v, fb := t.fb, display := s.display ++ [.render], pc := s.pc + 2, anom := t.anom, log := t.log }

/-- A sprite drawn on pixels that are off reports no collision; drawn again at the same place it clears them and, if
it has a 1 bit, reports the collision (R202, derived there; S6). VF may itself be a coordinate, so the second draw is
from a state whose coordinates are those of the first. -/
def Obligations.DrawingTwiceClearsAndCollides : Prop :=
  ∀ (x y : Reg) (n : BitVec 4) (s : State),
    (∀ r c, s.SpriteCovers 8 (s.getV x).toNat (s.getV y).toNat n.toNat r c → s.fb.pixel r c = false) →
    (∃ r c, s.SpriteCovers 8 (s.getV x).toNat (s.getV y).toNat n.toNat r c) →
      ∃ t, exec (.drw x y n) s = .next t ∧ t.getV VF = 0 ∧
        ∀ u : State, u.fb = t.fb → u.mem = s.mem → u.i = s.i → u.getV x = s.getV x → u.getV y = s.getV y →
          ∃ w, exec (.drw x y n) u = .next w ∧ w.fb = s.fb ∧ w.getV VF = 1

/-- Seven columns and eight give the same state for every sprite whose row bytes have bit 0 clear, and every byte of
the font has (R203; SPRITE_COLS is decision D15, the font decision D9). -/
def Obligations.SevenAndEightColumnsAgree : Prop :=
  (∀ (x y : Reg) (n : Nat) (s : State), (∀ k < n, (s.byteAt (s.dataAddr k)).getLsbD 0 = false) →
    State.drawSprite 7 x y n s = State.drawSprite 8 x y n s) ∧
  ∀ a < 80, (resetByte a).getLsbD 0 = false

/-- SKP and SKNP ask HOST about key V[x] mod 16, skip when its answer is true, log a value above 15, and use up one
answer; SKNP's query is its own. The answer is a free value where HOST has given none (R204, R205, R246; decision
D14, log entry 2). -/
def Obligations.KeySkipsFollowHostsAnswer : Prop :=
  ∀ (x : Reg) (k : Key) (s : State), k.toNat = (s.getV x).toNat % 16 →
    (∃ t, exec (.skp x) s = .next t ∧ t.pc = (if s.keyDownAnswer k then s.pc + 4 else s.pc + 2) ∧
      (∀ b rest, s.keyDownIn = b :: rest → t.pc = if b then s.pc + 4 else s.pc + 2) ∧
      s.Logs t (operandRecords (s.getV x)) ∧ s.SameBytes t ∧
      t = { s with pc := t.pc, keyDownIn := s.keyDownIn.tail, draws := s.draws + 1, anom := t.anom, log := t.log }) ∧
    ∃ t, exec (.sknp x) s = .next t ∧ t.pc = (if s.keyUpAnswer k then s.pc + 4 else s.pc + 2) ∧
      (∀ b rest, s.keyUpIn = b :: rest → t.pc = if b then s.pc + 4 else s.pc + 2) ∧
      s.Logs t (operandRecords (s.getV x)) ∧ s.SameBytes t ∧
      t = { s with pc := t.pc, keyUpIn := s.keyUpIn.tail, draws := s.draws + 1, anom := t.anom, log := t.log }

/-! ### Memory (20_memory.md) -/

/-- A byte written at a 16-bit address is read at every address with the same low 12 bits, every other byte reads as
before, and an address of 0x1000 or above leaves one record (R66, R67; decision D6). -/
def Obligations.MemoryWriteThenRead : Prop :=
  ∀ (s : State) (a : Word) (b : Byte),
    (∀ q : Word, q.toNat % 4096 = a.toNat % 4096 → (s.memWrite a b).byteAt q = b) ∧
    (∀ q : Word, q.toNat % 4096 ≠ a.toNat % 4096 → (s.memWrite a b).byteAt q = s.byteAt q) ∧
    s.Logs (s.memWrite a b) (if a.toNat < 0x1000 then [] else [⟨.memRange, a⟩]) ∧
    s.memWrite a b = { s with
      mem := (s.memWrite a b).mem, anom := (s.memWrite a b).anom, log := (s.memWrite a b).log }

/-- A store is seen by the very next fetch: the word fetched at I after a block store of at least V0 and V1 is
V0 ++ V1 (R65, R74, derived there). -/
def Obligations.StoreIsSeenByTheNextFetch : Prop :=
  ∀ (x : Reg) (s : State), 1 ≤ x.toNat → ∃ t, exec (.ldMemVx x) s = .next t ∧
    ∀ u : State, u.mem = t.mem → u.pc = s.i → u.fetchWord = s.getV 0 ++ s.getV 1

/-! ### Reset and loading (10_state.md R45, 70_reset_and_hazards.md) -/

/-- The state after reset has every value R45 and R260 give: registers, I, SP, timers zero, PC = 0x0200, Running, not
waiting, ANOM and LOG empty, STOP clear, FB off, TONE off, and the five bytes of glyph g at 5 * g, all sixteen glyphs as the
table of R69 has them. The values of
PAUSED, WAITKEY, ANOM, STOP and FB are decisions D17, D21, D22, D24, D26 and the font bytes D9. STACK and MEM_FILL, which
R45 leaves open, are not in it. -/
def Obligations.ResetLeavesTheGivenValues : Prop :=
  (∀ r, State.reset.getV r = 0) ∧ State.reset.i = 0 ∧ State.reset.pc = 0x0200 ∧ State.reset.sp = 0 ∧
  State.reset.dt = 0 ∧ State.reset.st = 0 ∧ State.reset.tone = false ∧ State.reset.paused = false ∧
  State.reset.waitKey = none ∧ State.reset.anom = 0 ∧ State.reset.log = [] ∧ State.reset.stop = false ∧
  (∀ r c, State.reset.fb.pixel r c = false) ∧
  (List.range 16).map (fun g => (List.range 5).map fun k => State.reset.byteAt (BitVec.ofNat 16 (5 * g + k))) =
    [[0xF0, 0x90, 0x90, 0x90, 0xF0], [0x20, 0x60, 0x20, 0x20, 0x70],
     [0xF0, 0x10, 0xF0, 0x80, 0xF0], [0xF0, 0x10, 0xF0, 0x10, 0xF0],
     [0x90, 0x90, 0xF0, 0x10, 0x10], [0xF0, 0x80, 0xF0, 0x10, 0xF0],
     [0xF0, 0x80, 0xF0, 0x90, 0xF0], [0xF0, 0x10, 0x20, 0x40, 0x40],
     [0xF0, 0x90, 0xF0, 0x90, 0xF0], [0xF0, 0x90, 0xF0, 0x10, 0xF0],
     [0xF0, 0x90, 0xF0, 0x90, 0x90], [0xE0, 0x90, 0xE0, 0x90, 0xE0],
     [0xF0, 0x80, 0x80, 0x80, 0xF0], [0xE0, 0x90, 0x90, 0x90, 0xE0],
     [0xF0, 0x80, 0xF0, 0x80, 0xF0], [0xF0, 0x80, 0xF0, 0x80, 0x80]]

/-- For every MEM_FILL and every contents of STACK, the state after reset reads the font below 0x050 (the bytes State.reset
reads there, which ResetLeavesTheGivenValues writes out) and the filling from 0x050 to 0xFFF, is canonical, and meets the invariant (R45, R265, U8, U9; font bytes D9). -/
def Obligations.ResetWithAnyFilling : Prop :=
  ∀ (fill : Nat → Byte) (entries : Vector Word 16),
    (∀ a < 80, (State.resetWith fill entries).byteAt (BitVec.ofNat 16 a) = State.reset.byteAt (BitVec.ofNat 16 a)) ∧
    (∀ a, 80 ≤ a → a < 4096 → (State.resetWith fill entries).byteAt (BitVec.ofNat 16 a) = fill a) ∧
    (State.resetWith fill entries).Inv

/-- Loading puts byte k of the program at 0x200 + k, leaves every other byte and all other state, and keeps memory
canonical (R263; that any length is loaded byte for byte is decision D28). -/
def Obligations.LoadPlacesTheProgram : Prop :=
  ∀ (bytes : List Byte) (s : State), bytes.length ≤ 3584 → ∃ t, s.load bytes = .next t ∧
    (∀ k (h : k < bytes.length), t.byteAt (BitVec.ofNat 16 (0x200 + k)) = bytes[k]) ∧
    (∀ a : Word, a.toNat % 4096 < 0x200 ∨ 0x200 + bytes.length ≤ a.toNat % 4096 → t.byteAt a = s.byteAt a) ∧
    (s.mem.wf = true → t.mem.wf = true) ∧ t = { s with mem := t.mem }

/-- A program is accepted when and only when its length does not exceed the space between 0x200 and the end of the
address range, 3584 bytes; a longer one is refused; the empty one is accepted and changes nothing (R264). -/
def Obligations.LoadRefusesExactlyTooLongPrograms : Prop :=
  ∀ (bytes : List Byte) (s : State),
    (bytes.length ≤ 0xFFF - 0x200 + 1 ↔ ∃ t, s.load bytes = .next t) ∧
    (0xFFF - 0x200 + 1 < bytes.length → s.load bytes = .refused .programTooLong) ∧ s.load [] = .next s

/-! ### Invariants and whole-machine rules -/

/-- The state after reset meets the invariant. -/
def Obligations.ResetMeetsTheInvariant : Prop := State.reset.Inv

/-- Every step from a state that meets the invariant ends in one that meets it, reachable or not: memory stays
canonical, no key event is kept between steps, a hold is never Paused, and ANOM and LOG agree (R31, R34, R122, R128,
R221, R231; the canonical form and the key event's field are the model's, log entries 4 and 7). -/
def Obligations.StepKeepsTheInvariant : Prop := ∀ s t : State, s.Inv → step s = .next t → t.Inv

/-- The ownership table of R39 for instructions: who may change MEM, I, SP and STACK, DT, ST and FB; no instruction
changes PAUSED, STOP, the pause toggle or the agenda (R23, R25, R27, R34, R35, R39). -/
def Obligations.EachFieldHasItsWriters : Prop :=
  ∀ (i : Instr) (s t : State), exec i s = .next t →
    (t.mem ≠ s.mem → (∃ x, i = .ldBVx x) ∨ ∃ x, i = .ldMemVx x) ∧
    (t.i ≠ s.i → (∃ addr, i = .ldI addr) ∨ (∃ x, i = .ldFVx x) ∨ ∃ x, i = .addIVx x) ∧
    (t.sp ≠ s.sp ∨ t.stack ≠ s.stack → (∃ addr, i = .call addr) ∨ i = .ret) ∧
    (t.dt ≠ s.dt → ∃ x, i = .ldDTVx x) ∧ (t.st ≠ s.st → ∃ x, i = .ldSTVx x) ∧
    (t.fb ≠ s.fb → i = .cls ∨ ∃ x y n, i = .drw x y n) ∧
    t.paused = s.paused ∧ t.stop = s.stop ∧ t.pauseToggle = s.pauseToggle ∧ t.agenda = s.agenda

/-- VF changes only by the six flag-writing instructions, or where V[15] is the destination as data (R22; decision
D11). -/
def Obligations.OnlyFlagWritersTouchVF : Prop :=
  ∀ (i : Instr) (s t : State), exec i s = .next t → t.getV VF ≠ s.getV VF →
    (∃ x y, i = .addReg x y ∨ i = .sub x y ∨ i = .shr x y ∨ i = .subn x y ∨ i = .shl x y) ∨
    (∃ x y n, i = .drw x y n) ∨
    (∃ k, i = .ldByte VF k ∨ i = .addByte VF k ∨ i = .rnd VF k) ∨
    (∃ y, i = .ldReg VF y ∨ i = .orReg VF y ∨ i = .andReg VF y ∨ i = .xorReg VF y) ∨
    i = .ldVxDT VF ∨ i = .ldVxK VF ∨ i = .ldVxMem VF

/-- Every step only appends to LOG and to the display events and never clears a bit of ANOM (R31, R221; decision D24;
that the display events are recorded is log entry 17). -/
def Obligations.LogOnlyGrowsAndAnomIsSticky : Prop :=
  ∀ s t : State, step s = .next t →
    s.log <+: t.log ∧ s.display <+: t.display ∧ ∀ c, s.anomBit c = true → t.anomBit c = true

/-- No instruction reads ANOM, LOG or what the display was told: with other contents of these it does the same to
everything else (R31, R200, R253). -/
def Obligations.LogIsReadByNoInstruction : Prop :=
  ∀ (i : Instr) (s t : State) (a : BitVec 5) (l : List LogRecord) (d : List DisplayEvent), exec i s = .next t →
    ∃ t', exec i { s with anom := a, log := l, display := d } = .next t' ∧
      t' = { t with anom := t'.anom, log := t'.log, display := t'.display }

/-- ST: TONE is ST > 0; LD ST, Vx writes it and a Running tick decrements it, saturating at zero, as it does DT; a step
that changes it is such a tick or CORE's Running cycle, in no hold, of an FX18, and no other; no instruction reads it; it is 0, and TONE false, at reset (R28). -/
def Obligations.SoundTimerIsWrittenTwoWaysAndReadByNone : Prop :=
  (∀ s : State, s.tone = true ↔ 0 < s.st.toNat) ∧
  (∀ (x : Reg) (s : State), exec (.ldSTVx x) s = .next { s with st := s.getV x, pc := s.pc + 2 }) ∧
  (∀ s : State, s.stop = false → s.nextTurn = .tick → s.paused = false →
    ∃ t, step s = .next t ∧ t.st.toNat = s.st.toNat - 1 ∧ t.dt.toNat = s.dt.toNat - 1) ∧
  (∀ s t : State, step s = .next t → t.st ≠ s.st →
    (s.nextTurn = .tick ∧ s.paused = false ∧ t.st.toNat = s.st.toNat - 1 ∧ t.dt.toNat = s.dt.toNat - 1) ∨
    (s.nextTurn = .core ∧ s.waitKey = none ∧ s.paused = s.pauseToggle ∧
      ∃ x, decodeWord s.fetchWord = .ldSTVx x ∧ t.st = s.getV x)) ∧
  (∀ (i : Instr) (s t : State) (b : Byte), exec i s = .next t →
    ∃ t', exec i { s with st := b } = .next t' ∧ t' = { t with st := t'.st } ∧
      ((∀ x, i ≠ .ldSTVx x) → t.st = s.st ∧ t'.st = b)) ∧
  State.reset.st = 0 ∧ State.reset.tone = false

/-- An instruction other than RND, SKP, SKNP and LD Vx, K does the same whatever HOST's answers, key events and the
turns to come are (R131, R246; S2, conflict C8). -/
def Obligations.OnlyFourInstructionsAskHost : Prop :=
  ∀ (i : Instr) (s t : State) (r : List Byte) (d u : List Bool) (e : Option Key) (g : List Turn) (n : Nat),
    (∀ x k, i ≠ .rnd x k) → (∀ x, i ≠ .skp x) → (∀ x, i ≠ .sknp x) → (∀ x, i ≠ .ldVxK x) → exec i s = .next t →
      exec i { s with randIn := r, keyDownIn := d, keyUpIn := u, keyEvent := e, agenda := g, draws := n } =
        .next { t with randIn := r, keyDownIn := d, keyUpIn := u, keyEvent := e, agenda := g, draws := n }

/-- The stack above SP is dead: entries at or above SP, whatever they hold (after reset too), change nothing an
instruction does but themselves, so the entries reset leaves open are never read (R26, derived there; log entry 5). -/
def Obligations.DeadStackEntriesAreNotRead : Prop :=
  ∀ (i : Instr) (s t : State) (entries : Vector Word 16),
    (∀ k : Fin 16, k.val < s.sp.val → entries.get k = s.stack.get k) → exec i s = .next t →
      ∃ t', exec i { s with stack := entries } = .next t' ∧ t' = { t with stack := t'.stack } ∧
        ∀ k : Fin 16, k.val < t.sp.val → t'.stack.get k = t.stack.get k

/-- The net PC of every instruction, as `State.netPc` writes out the table of R24: addr for JP and CALL, addr + V0 for
JP V0, the newest return address for RET, PC + 4 for a skip whose condition holds and only then (for the key skips,
HOST's answer for key V[x] mod 16), PC + 2 for everything else, a CALL on a full stack and a RET on an empty one
included, and PC for a key-wait that holds (R24, R127; log entry 12, the key-wait's two steps log entry 7). -/
def Obligations.NetPcOfEveryInstruction : Prop :=
  ∀ (i : Instr) (s : State), ∃ t, exec i s = .next t ∧ t.pc = s.netPc i

/-- An instruction leaves a record only where R220 lists one: an unknown word, CALL on a full stack, RET on an empty
one, a key number or glyph index above 15, a data access at 0x1000 or above (R220, R225, R226, R227; decisions D5, D6,
D13, D14). -/
def Obligations.AnomaliesOnlyWhereListed : Prop :=
  ∀ (i : Instr) (s t : State), exec i s = .next t → t.log ≠ s.log →
    (∃ op, i = .unknown op) ∨ (∃ addr, i = .call addr ∧ s.sp.val = 16) ∨ (i = .ret ∧ s.sp.val = 0) ∨
    (∃ x, (i = .skp x ∨ i = .sknp x ∨ i = .ldFVx x) ∧ 15 < (s.getV x).toNat) ∨
    ∃ k < 16, 0x1000 ≤ (s.dataAddr k).toNat ∧
      ((∃ x y n, i = .drw x y n ∧ k < n.toNat) ∨ (∃ x, i = .ldBVx x ∧ k < 3) ∨
        ∃ x, (i = .ldMemVx x ∨ i = .ldVxMem x) ∧ k ≤ x.toNat)
end

