-- ==== Sys2Proof/Laws/Memory.lean ====
section
/-! SUPPORT. Memory: read after write, and that a write keeps the canonical form. -/

namespace Sys2Proof.Machine.Memory

theorem lookup_erase (m : Memory) (a q : Nat) :
    (m.erase a).lookup q = if q = a then none else m.lookup q := by
  induction m with
  | nil => simp [erase, lookup]
  | cons c rest ih =>
    simp only [erase, List.filter_cons] at ih ⊢
    by_cases hc : c.1 = a
    · simp only [hc, bne_self_eq_false, Bool.false_eq_true, ↓reduceIte, ih, lookup]
      by_cases hq : q = a
      · simp [hq]
      · simp [hq, Ne.symm hq]
    · simp only [bne_iff_ne, ne_eq, hc, not_false_eq_true, ↓reduceIte, lookup, ih]
      by_cases hq : q = a
      · simp [hq, hc]
      · simp [hq]

theorem lookup_insert_self (m : Memory) (a : Nat) (b : Byte) (h : m.lookup a = none) :
    (m.insert a b).lookup a = some b := by
  induction m with
  | nil => simp [insert, lookup]
  | cons c rest ih =>
    simp only [lookup] at h
    split at h
    · cases h
    · rename_i hc
      simp only [insert]
      split
      · simp [lookup]
      · simp [lookup, hc, ih h]

theorem lookup_insert_ne (m : Memory) (a q : Nat) (b : Byte) (h : q ≠ a) :
    (m.insert a b).lookup q = m.lookup q := by
  induction m with
  | nil => simp [insert, lookup, Ne.symm h]
  | cons c rest ih =>
    simp only [insert]
    split
    · simp [lookup, Ne.symm h]
    · simp [lookup, ih]

/-- A read after a write gives the byte written there, and what it gave before anywhere else. -/
theorem read_write (m : Memory) (a q : Nat) (b : Byte) :
    (m.write a b).read q = if q = a then b else m.read q := by
  unfold write read
  split
  · rename_i hb
    rw [lookup_erase]
    by_cases hq : q = a
    · simp [hq, hb]
    · simp [hq]
  · by_cases hq : q = a
    · subst hq
      simp [lookup_insert_self _ _ _ (show (m.erase q).lookup q = none by simp [lookup_erase])]
    · rw [lookup_insert_ne _ _ _ _ hq, lookup_erase]
      simp [hq]

theorem rising_lower {lo lo' : Option Nat} {m : Memory} (h : rising lo m = true)
    (hl : ∀ x ∈ lo', ∃ y ∈ lo, x ≤ y) : rising lo' m = true := by
  cases m with
  | nil => rfl
  | cons c rest =>
    simp only [rising, Bool.and_eq_true] at h ⊢
    refine ⟨?_, h.2⟩
    cases lo' with
    | none => rfl
    | some x =>
      obtain ⟨y, hy, hxy⟩ := hl x rfl
      cases lo with
      | none => cases hy
      | some z =>
        cases hy
        have := of_decide_eq_true h.1
        exact decide_eq_true (by omega)

theorem rising_erase (lo : Option Nat) (m : Memory) (a : Nat) (h : rising lo m = true) :
    rising lo (m.erase a) = true := by
  induction m generalizing lo with
  | nil => rfl
  | cons c rest ih =>
    simp only [rising, Bool.and_eq_true] at h
    simp only [erase, List.filter_cons] at ih ⊢
    split
    · simp only [rising, Bool.and_eq_true]
      exact ⟨h.1, ih _ h.2⟩
    · refine ih lo (rising_lower h.2 fun x hx => ⟨c.1, rfl, ?_⟩)
      cases hx
      have := of_decide_eq_true h.1
      omega

theorem rising_insert (lo : Option Nat) (m : Memory) (a : Nat) (b : Byte) (h : rising lo m = true)
    (hlo : lo.all (· < a) = true) (hm : m.lookup a = none) : rising lo (m.insert a b) = true := by
  induction m generalizing lo with
  | nil => simp [insert, rising, hlo]
  | cons c rest ih =>
    simp only [rising, Bool.and_eq_true] at h
    simp only [lookup] at hm
    split at hm
    · cases hm
    · rename_i hc
      simp only [insert]
      split
      · rename_i hac
        simp only [rising, Bool.and_eq_true]
        exact ⟨hlo, decide_eq_true hac, h.2⟩
      · rename_i hac
        simp only [rising, Bool.and_eq_true]
        exact ⟨h.1, ih _ h.2 (decide_eq_true (by omega)) hm⟩

theorem all_insert (p : Host.Cell → Bool) (m : Memory) (a : Nat) (b : Byte) (h : m.all p = true)
    (hp : p (a, b) = true) : (m.insert a b).all p = true := by
  induction m with
  | nil => simp [insert, hp]
  | cons c rest ih =>
    simp only [List.all_cons, Bool.and_eq_true] at h
    simp only [insert]
    split
    · simp [hp, h.1, h.2]
    · simp [h.1, ih h.2]

/-- A write at an address that exists keeps the canonical form. -/
theorem wf_write (m : Memory) (a : Nat) (b : Byte) (h : m.wf = true) (ha : a < 4096) :
    (m.write a b).wf = true := by
  simp only [wf, Bool.and_eq_true] at h ⊢
  have hall : (m.erase a).all (fun c => decide (c.1 < 4096) && c.2 != resetByte c.1) = true := by
    rw [List.all_eq_true] at h ⊢
    intro c hc
    exact h.2 c (List.mem_of_mem_filter hc)
  unfold write
  split
  · exact ⟨rising_erase _ _ _ h.1, hall⟩
  · rename_i hb
    refine ⟨rising_insert _ _ _ _ (rising_erase _ _ _ h.1) rfl (by simp [lookup_erase]), ?_⟩
    exact all_insert _ _ _ _ hall (by simp [ha, hb])

end Sys2Proof.Machine.Memory
end

