-- ==== Sys2Proof/Laws/State.lean ====
section
/-! SUPPORT. What each update of the state does to each field, one lemma per field, true by rfl; and what the
operations that only log do. -/

namespace Sys2Proof.Machine.State

variable (s : State)

/-! ### setV -/

@[simp] theorem setV_v (r : Reg) (b : Byte) : (s.setV r b).v = s.v.set r.toNat b r.isLt := rfl
@[simp] theorem setV_i (r : Reg) (b : Byte) : (s.setV r b).i = s.i := rfl
@[simp] theorem setV_pc (r : Reg) (b : Byte) : (s.setV r b).pc = s.pc := rfl
@[simp] theorem setV_sp (r : Reg) (b : Byte) : (s.setV r b).sp = s.sp := rfl
@[simp] theorem setV_stack (r : Reg) (b : Byte) : (s.setV r b).stack = s.stack := rfl
@[simp] theorem setV_dt (r : Reg) (b : Byte) : (s.setV r b).dt = s.dt := rfl
@[simp] theorem setV_st (r : Reg) (b : Byte) : (s.setV r b).st = s.st := rfl
@[simp] theorem setV_mem (r : Reg) (b : Byte) : (s.setV r b).mem = s.mem := rfl
@[simp] theorem setV_paused (r : Reg) (b : Byte) : (s.setV r b).paused = s.paused := rfl
@[simp] theorem setV_waitKey (r : Reg) (b : Byte) : (s.setV r b).waitKey = s.waitKey := rfl
@[simp] theorem setV_anom (r : Reg) (b : Byte) : (s.setV r b).anom = s.anom := rfl
@[simp] theorem setV_log (r : Reg) (b : Byte) : (s.setV r b).log = s.log := rfl
@[simp] theorem setV_stop (r : Reg) (b : Byte) : (s.setV r b).stop = s.stop := rfl
@[simp] theorem setV_fb (r : Reg) (b : Byte) : (s.setV r b).fb = s.fb := rfl
@[simp] theorem setV_display (r : Reg) (b : Byte) : (s.setV r b).display = s.display := rfl
@[simp] theorem setV_pauseToggle (r : Reg) (b : Byte) : (s.setV r b).pauseToggle = s.pauseToggle := rfl
@[simp] theorem setV_keyEvent (r : Reg) (b : Byte) : (s.setV r b).keyEvent = s.keyEvent := rfl
@[simp] theorem setV_randIn (r : Reg) (b : Byte) : (s.setV r b).randIn = s.randIn := rfl
@[simp] theorem setV_keyDownIn (r : Reg) (b : Byte) : (s.setV r b).keyDownIn = s.keyDownIn := rfl
@[simp] theorem setV_keyUpIn (r : Reg) (b : Byte) : (s.setV r b).keyUpIn = s.keyUpIn := rfl
@[simp] theorem setV_agenda (r : Reg) (b : Byte) : (s.setV r b).agenda = s.agenda := rfl
@[simp] theorem setV_draws (r : Reg) (b : Byte) : (s.setV r b).draws = s.draws := rfl
@[simp] theorem byteAt_setV (r : Reg) (b : Byte) (q : Word) : (s.setV r b).byteAt q = s.byteAt q := rfl
@[simp] theorem dataAddr_setV (r : Reg) (b : Byte) (k : Nat) : (s.setV r b).dataAddr k = s.dataAddr k := rfl

/-! ### setI -/

@[simp] theorem setI_v (w : Word) : (s.setI w).v = s.v := rfl
@[simp] theorem setI_i (w : Word) : (s.setI w).i = w := rfl
@[simp] theorem setI_pc (w : Word) : (s.setI w).pc = s.pc := rfl
@[simp] theorem setI_sp (w : Word) : (s.setI w).sp = s.sp := rfl
@[simp] theorem setI_stack (w : Word) : (s.setI w).stack = s.stack := rfl
@[simp] theorem setI_dt (w : Word) : (s.setI w).dt = s.dt := rfl
@[simp] theorem setI_st (w : Word) : (s.setI w).st = s.st := rfl
@[simp] theorem setI_mem (w : Word) : (s.setI w).mem = s.mem := rfl
@[simp] theorem setI_paused (w : Word) : (s.setI w).paused = s.paused := rfl
@[simp] theorem setI_waitKey (w : Word) : (s.setI w).waitKey = s.waitKey := rfl
@[simp] theorem setI_anom (w : Word) : (s.setI w).anom = s.anom := rfl
@[simp] theorem setI_log (w : Word) : (s.setI w).log = s.log := rfl
@[simp] theorem setI_stop (w : Word) : (s.setI w).stop = s.stop := rfl
@[simp] theorem setI_fb (w : Word) : (s.setI w).fb = s.fb := rfl
@[simp] theorem setI_display (w : Word) : (s.setI w).display = s.display := rfl
@[simp] theorem setI_pauseToggle (w : Word) : (s.setI w).pauseToggle = s.pauseToggle := rfl
@[simp] theorem setI_keyEvent (w : Word) : (s.setI w).keyEvent = s.keyEvent := rfl
@[simp] theorem setI_randIn (w : Word) : (s.setI w).randIn = s.randIn := rfl
@[simp] theorem setI_keyDownIn (w : Word) : (s.setI w).keyDownIn = s.keyDownIn := rfl
@[simp] theorem setI_keyUpIn (w : Word) : (s.setI w).keyUpIn = s.keyUpIn := rfl
@[simp] theorem setI_agenda (w : Word) : (s.setI w).agenda = s.agenda := rfl
@[simp] theorem setI_draws (w : Word) : (s.setI w).draws = s.draws := rfl
@[simp] theorem getV_setI (w : Word) (q : Reg) : (s.setI w).getV q = s.getV q := rfl
@[simp] theorem byteAt_setI (w : Word) (q : Word) : (s.setI w).byteAt q = s.byteAt q := rfl

/-! ### setPc -/

@[simp] theorem setPc_v (w : Word) : (s.setPc w).v = s.v := rfl
@[simp] theorem setPc_i (w : Word) : (s.setPc w).i = s.i := rfl
@[simp] theorem setPc_pc (w : Word) : (s.setPc w).pc = w := rfl
@[simp] theorem setPc_sp (w : Word) : (s.setPc w).sp = s.sp := rfl
@[simp] theorem setPc_stack (w : Word) : (s.setPc w).stack = s.stack := rfl
@[simp] theorem setPc_dt (w : Word) : (s.setPc w).dt = s.dt := rfl
@[simp] theorem setPc_st (w : Word) : (s.setPc w).st = s.st := rfl
@[simp] theorem setPc_mem (w : Word) : (s.setPc w).mem = s.mem := rfl
@[simp] theorem setPc_paused (w : Word) : (s.setPc w).paused = s.paused := rfl
@[simp] theorem setPc_waitKey (w : Word) : (s.setPc w).waitKey = s.waitKey := rfl
@[simp] theorem setPc_anom (w : Word) : (s.setPc w).anom = s.anom := rfl
@[simp] theorem setPc_log (w : Word) : (s.setPc w).log = s.log := rfl
@[simp] theorem setPc_stop (w : Word) : (s.setPc w).stop = s.stop := rfl
@[simp] theorem setPc_fb (w : Word) : (s.setPc w).fb = s.fb := rfl
@[simp] theorem setPc_display (w : Word) : (s.setPc w).display = s.display := rfl
@[simp] theorem setPc_pauseToggle (w : Word) : (s.setPc w).pauseToggle = s.pauseToggle := rfl
@[simp] theorem setPc_keyEvent (w : Word) : (s.setPc w).keyEvent = s.keyEvent := rfl
@[simp] theorem setPc_randIn (w : Word) : (s.setPc w).randIn = s.randIn := rfl
@[simp] theorem setPc_keyDownIn (w : Word) : (s.setPc w).keyDownIn = s.keyDownIn := rfl
@[simp] theorem setPc_keyUpIn (w : Word) : (s.setPc w).keyUpIn = s.keyUpIn := rfl
@[simp] theorem setPc_agenda (w : Word) : (s.setPc w).agenda = s.agenda := rfl
@[simp] theorem setPc_draws (w : Word) : (s.setPc w).draws = s.draws := rfl
@[simp] theorem getV_setPc (w : Word) (q : Reg) : (s.setPc w).getV q = s.getV q := rfl
@[simp] theorem byteAt_setPc (w : Word) (q : Word) : (s.setPc w).byteAt q = s.byteAt q := rfl
@[simp] theorem dataAddr_setPc (w : Word) (k : Nat) : (s.setPc w).dataAddr k = s.dataAddr k := rfl

/-! ### logAnomaly -/

@[simp] theorem logAnomaly_v (c : Anomaly) (w : Word) : (s.logAnomaly c w).v = s.v := rfl
@[simp] theorem logAnomaly_i (c : Anomaly) (w : Word) : (s.logAnomaly c w).i = s.i := rfl
@[simp] theorem logAnomaly_pc (c : Anomaly) (w : Word) : (s.logAnomaly c w).pc = s.pc := rfl
@[simp] theorem logAnomaly_sp (c : Anomaly) (w : Word) : (s.logAnomaly c w).sp = s.sp := rfl
@[simp] theorem logAnomaly_stack (c : Anomaly) (w : Word) : (s.logAnomaly c w).stack = s.stack := rfl
@[simp] theorem logAnomaly_dt (c : Anomaly) (w : Word) : (s.logAnomaly c w).dt = s.dt := rfl
@[simp] theorem logAnomaly_st (c : Anomaly) (w : Word) : (s.logAnomaly c w).st = s.st := rfl
@[simp] theorem logAnomaly_mem (c : Anomaly) (w : Word) : (s.logAnomaly c w).mem = s.mem := rfl
@[simp] theorem logAnomaly_paused (c : Anomaly) (w : Word) : (s.logAnomaly c w).paused = s.paused := rfl
@[simp] theorem logAnomaly_waitKey (c : Anomaly) (w : Word) : (s.logAnomaly c w).waitKey = s.waitKey := rfl
@[simp] theorem logAnomaly_anom (c : Anomaly) (w : Word) : (s.logAnomaly c w).anom = s.anom ||| BitVec.twoPow 5 (c.code.toNat - 1) := rfl
@[simp] theorem logAnomaly_log (c : Anomaly) (w : Word) : (s.logAnomaly c w).log = s.log ++ [⟨c, w⟩] := rfl
@[simp] theorem logAnomaly_stop (c : Anomaly) (w : Word) : (s.logAnomaly c w).stop = s.stop := rfl
@[simp] theorem logAnomaly_fb (c : Anomaly) (w : Word) : (s.logAnomaly c w).fb = s.fb := rfl
@[simp] theorem logAnomaly_display (c : Anomaly) (w : Word) : (s.logAnomaly c w).display = s.display := rfl
@[simp] theorem logAnomaly_pauseToggle (c : Anomaly) (w : Word) : (s.logAnomaly c w).pauseToggle = s.pauseToggle := rfl
@[simp] theorem logAnomaly_keyEvent (c : Anomaly) (w : Word) : (s.logAnomaly c w).keyEvent = s.keyEvent := rfl
@[simp] theorem logAnomaly_randIn (c : Anomaly) (w : Word) : (s.logAnomaly c w).randIn = s.randIn := rfl
@[simp] theorem logAnomaly_keyDownIn (c : Anomaly) (w : Word) : (s.logAnomaly c w).keyDownIn = s.keyDownIn := rfl
@[simp] theorem logAnomaly_keyUpIn (c : Anomaly) (w : Word) : (s.logAnomaly c w).keyUpIn = s.keyUpIn := rfl
@[simp] theorem logAnomaly_agenda (c : Anomaly) (w : Word) : (s.logAnomaly c w).agenda = s.agenda := rfl
@[simp] theorem logAnomaly_draws (c : Anomaly) (w : Word) : (s.logAnomaly c w).draws = s.draws := rfl
@[simp] theorem getV_logAnomaly (c : Anomaly) (w : Word) (q : Reg) : (s.logAnomaly c w).getV q = s.getV q := rfl
@[simp] theorem byteAt_logAnomaly (c : Anomaly) (w : Word) (q : Word) : (s.logAnomaly c w).byteAt q = s.byteAt q := rfl
@[simp] theorem dataAddr_logAnomaly (c : Anomaly) (w : Word) (k : Nat) : (s.logAnomaly c w).dataAddr k = s.dataAddr k := rfl

/-! ### pokeByte -/

@[simp] theorem pokeByte_v (a : Word) (b : Byte) : (s.pokeByte a b).v = s.v := rfl
@[simp] theorem pokeByte_i (a : Word) (b : Byte) : (s.pokeByte a b).i = s.i := rfl
@[simp] theorem pokeByte_pc (a : Word) (b : Byte) : (s.pokeByte a b).pc = s.pc := rfl
@[simp] theorem pokeByte_sp (a : Word) (b : Byte) : (s.pokeByte a b).sp = s.sp := rfl
@[simp] theorem pokeByte_stack (a : Word) (b : Byte) : (s.pokeByte a b).stack = s.stack := rfl
@[simp] theorem pokeByte_dt (a : Word) (b : Byte) : (s.pokeByte a b).dt = s.dt := rfl
@[simp] theorem pokeByte_st (a : Word) (b : Byte) : (s.pokeByte a b).st = s.st := rfl
@[simp] theorem pokeByte_mem (a : Word) (b : Byte) : (s.pokeByte a b).mem = s.mem.write (a.toNat % 4096) b := rfl
@[simp] theorem pokeByte_paused (a : Word) (b : Byte) : (s.pokeByte a b).paused = s.paused := rfl
@[simp] theorem pokeByte_waitKey (a : Word) (b : Byte) : (s.pokeByte a b).waitKey = s.waitKey := rfl
@[simp] theorem pokeByte_anom (a : Word) (b : Byte) : (s.pokeByte a b).anom = s.anom := rfl
@[simp] theorem pokeByte_log (a : Word) (b : Byte) : (s.pokeByte a b).log = s.log := rfl
@[simp] theorem pokeByte_stop (a : Word) (b : Byte) : (s.pokeByte a b).stop = s.stop := rfl
@[simp] theorem pokeByte_fb (a : Word) (b : Byte) : (s.pokeByte a b).fb = s.fb := rfl
@[simp] theorem pokeByte_display (a : Word) (b : Byte) : (s.pokeByte a b).display = s.display := rfl
@[simp] theorem pokeByte_pauseToggle (a : Word) (b : Byte) : (s.pokeByte a b).pauseToggle = s.pauseToggle := rfl
@[simp] theorem pokeByte_keyEvent (a : Word) (b : Byte) : (s.pokeByte a b).keyEvent = s.keyEvent := rfl
@[simp] theorem pokeByte_randIn (a : Word) (b : Byte) : (s.pokeByte a b).randIn = s.randIn := rfl
@[simp] theorem pokeByte_keyDownIn (a : Word) (b : Byte) : (s.pokeByte a b).keyDownIn = s.keyDownIn := rfl
@[simp] theorem pokeByte_keyUpIn (a : Word) (b : Byte) : (s.pokeByte a b).keyUpIn = s.keyUpIn := rfl
@[simp] theorem pokeByte_agenda (a : Word) (b : Byte) : (s.pokeByte a b).agenda = s.agenda := rfl
@[simp] theorem pokeByte_draws (a : Word) (b : Byte) : (s.pokeByte a b).draws = s.draws := rfl
@[simp] theorem getV_pokeByte (a : Word) (b : Byte) (q : Reg) : (s.pokeByte a b).getV q = s.getV q := rfl
@[simp] theorem dataAddr_pokeByte (a : Word) (b : Byte) (k : Nat) : (s.pokeByte a b).dataAddr k = s.dataAddr k := rfl

/-! ### setDt -/

@[simp] theorem setDt_v (b : Byte) : (s.setDt b).v = s.v := rfl
@[simp] theorem setDt_i (b : Byte) : (s.setDt b).i = s.i := rfl
@[simp] theorem setDt_pc (b : Byte) : (s.setDt b).pc = s.pc := rfl
@[simp] theorem setDt_sp (b : Byte) : (s.setDt b).sp = s.sp := rfl
@[simp] theorem setDt_stack (b : Byte) : (s.setDt b).stack = s.stack := rfl
@[simp] theorem setDt_dt (b : Byte) : (s.setDt b).dt = b := rfl
@[simp] theorem setDt_st (b : Byte) : (s.setDt b).st = s.st := rfl
@[simp] theorem setDt_mem (b : Byte) : (s.setDt b).mem = s.mem := rfl
@[simp] theorem setDt_paused (b : Byte) : (s.setDt b).paused = s.paused := rfl
@[simp] theorem setDt_waitKey (b : Byte) : (s.setDt b).waitKey = s.waitKey := rfl
@[simp] theorem setDt_anom (b : Byte) : (s.setDt b).anom = s.anom := rfl
@[simp] theorem setDt_log (b : Byte) : (s.setDt b).log = s.log := rfl
@[simp] theorem setDt_stop (b : Byte) : (s.setDt b).stop = s.stop := rfl
@[simp] theorem setDt_fb (b : Byte) : (s.setDt b).fb = s.fb := rfl
@[simp] theorem setDt_display (b : Byte) : (s.setDt b).display = s.display := rfl
@[simp] theorem setDt_pauseToggle (b : Byte) : (s.setDt b).pauseToggle = s.pauseToggle := rfl
@[simp] theorem setDt_keyEvent (b : Byte) : (s.setDt b).keyEvent = s.keyEvent := rfl
@[simp] theorem setDt_randIn (b : Byte) : (s.setDt b).randIn = s.randIn := rfl
@[simp] theorem setDt_keyDownIn (b : Byte) : (s.setDt b).keyDownIn = s.keyDownIn := rfl
@[simp] theorem setDt_keyUpIn (b : Byte) : (s.setDt b).keyUpIn = s.keyUpIn := rfl
@[simp] theorem setDt_agenda (b : Byte) : (s.setDt b).agenda = s.agenda := rfl
@[simp] theorem setDt_draws (b : Byte) : (s.setDt b).draws = s.draws := rfl
@[simp] theorem getV_setDt (b : Byte) (q : Reg) : (s.setDt b).getV q = s.getV q := rfl
@[simp] theorem byteAt_setDt (b : Byte) (q : Word) : (s.setDt b).byteAt q = s.byteAt q := rfl
@[simp] theorem dataAddr_setDt (b : Byte) (k : Nat) : (s.setDt b).dataAddr k = s.dataAddr k := rfl

/-! ### setSt -/

@[simp] theorem setSt_v (b : Byte) : (s.setSt b).v = s.v := rfl
@[simp] theorem setSt_i (b : Byte) : (s.setSt b).i = s.i := rfl
@[simp] theorem setSt_pc (b : Byte) : (s.setSt b).pc = s.pc := rfl
@[simp] theorem setSt_sp (b : Byte) : (s.setSt b).sp = s.sp := rfl
@[simp] theorem setSt_stack (b : Byte) : (s.setSt b).stack = s.stack := rfl
@[simp] theorem setSt_dt (b : Byte) : (s.setSt b).dt = s.dt := rfl
@[simp] theorem setSt_st (b : Byte) : (s.setSt b).st = b := rfl
@[simp] theorem setSt_mem (b : Byte) : (s.setSt b).mem = s.mem := rfl
@[simp] theorem setSt_paused (b : Byte) : (s.setSt b).paused = s.paused := rfl
@[simp] theorem setSt_waitKey (b : Byte) : (s.setSt b).waitKey = s.waitKey := rfl
@[simp] theorem setSt_anom (b : Byte) : (s.setSt b).anom = s.anom := rfl
@[simp] theorem setSt_log (b : Byte) : (s.setSt b).log = s.log := rfl
@[simp] theorem setSt_stop (b : Byte) : (s.setSt b).stop = s.stop := rfl
@[simp] theorem setSt_fb (b : Byte) : (s.setSt b).fb = s.fb := rfl
@[simp] theorem setSt_display (b : Byte) : (s.setSt b).display = s.display := rfl
@[simp] theorem setSt_pauseToggle (b : Byte) : (s.setSt b).pauseToggle = s.pauseToggle := rfl
@[simp] theorem setSt_keyEvent (b : Byte) : (s.setSt b).keyEvent = s.keyEvent := rfl
@[simp] theorem setSt_randIn (b : Byte) : (s.setSt b).randIn = s.randIn := rfl
@[simp] theorem setSt_keyDownIn (b : Byte) : (s.setSt b).keyDownIn = s.keyDownIn := rfl
@[simp] theorem setSt_keyUpIn (b : Byte) : (s.setSt b).keyUpIn = s.keyUpIn := rfl
@[simp] theorem setSt_agenda (b : Byte) : (s.setSt b).agenda = s.agenda := rfl
@[simp] theorem setSt_draws (b : Byte) : (s.setSt b).draws = s.draws := rfl
@[simp] theorem getV_setSt (b : Byte) (q : Reg) : (s.setSt b).getV q = s.getV q := rfl
@[simp] theorem byteAt_setSt (b : Byte) (q : Word) : (s.setSt b).byteAt q = s.byteAt q := rfl
@[simp] theorem dataAddr_setSt (b : Byte) (k : Nat) : (s.setSt b).dataAddr k = s.dataAddr k := rfl

/-! ### setFb -/

@[simp] theorem setFb_v (f : Frame) : (s.setFb f).v = s.v := rfl
@[simp] theorem setFb_i (f : Frame) : (s.setFb f).i = s.i := rfl
@[simp] theorem setFb_pc (f : Frame) : (s.setFb f).pc = s.pc := rfl
@[simp] theorem setFb_sp (f : Frame) : (s.setFb f).sp = s.sp := rfl
@[simp] theorem setFb_stack (f : Frame) : (s.setFb f).stack = s.stack := rfl
@[simp] theorem setFb_dt (f : Frame) : (s.setFb f).dt = s.dt := rfl
@[simp] theorem setFb_st (f : Frame) : (s.setFb f).st = s.st := rfl
@[simp] theorem setFb_mem (f : Frame) : (s.setFb f).mem = s.mem := rfl
@[simp] theorem setFb_paused (f : Frame) : (s.setFb f).paused = s.paused := rfl
@[simp] theorem setFb_waitKey (f : Frame) : (s.setFb f).waitKey = s.waitKey := rfl
@[simp] theorem setFb_anom (f : Frame) : (s.setFb f).anom = s.anom := rfl
@[simp] theorem setFb_log (f : Frame) : (s.setFb f).log = s.log := rfl
@[simp] theorem setFb_stop (f : Frame) : (s.setFb f).stop = s.stop := rfl
@[simp] theorem setFb_fb (f : Frame) : (s.setFb f).fb = f := rfl
@[simp] theorem setFb_display (f : Frame) : (s.setFb f).display = s.display := rfl
@[simp] theorem setFb_pauseToggle (f : Frame) : (s.setFb f).pauseToggle = s.pauseToggle := rfl
@[simp] theorem setFb_keyEvent (f : Frame) : (s.setFb f).keyEvent = s.keyEvent := rfl
@[simp] theorem setFb_randIn (f : Frame) : (s.setFb f).randIn = s.randIn := rfl
@[simp] theorem setFb_keyDownIn (f : Frame) : (s.setFb f).keyDownIn = s.keyDownIn := rfl
@[simp] theorem setFb_keyUpIn (f : Frame) : (s.setFb f).keyUpIn = s.keyUpIn := rfl
@[simp] theorem setFb_agenda (f : Frame) : (s.setFb f).agenda = s.agenda := rfl
@[simp] theorem setFb_draws (f : Frame) : (s.setFb f).draws = s.draws := rfl
@[simp] theorem getV_setFb (f : Frame) (q : Reg) : (s.setFb f).getV q = s.getV q := rfl
@[simp] theorem byteAt_setFb (f : Frame) (q : Word) : (s.setFb f).byteAt q = s.byteAt q := rfl
@[simp] theorem dataAddr_setFb (f : Frame) (k : Nat) : (s.setFb f).dataAddr k = s.dataAddr k := rfl

/-! ### emit -/

@[simp] theorem emit_v (e : DisplayEvent) : (s.emit e).v = s.v := rfl
@[simp] theorem emit_i (e : DisplayEvent) : (s.emit e).i = s.i := rfl
@[simp] theorem emit_pc (e : DisplayEvent) : (s.emit e).pc = s.pc := rfl
@[simp] theorem emit_sp (e : DisplayEvent) : (s.emit e).sp = s.sp := rfl
@[simp] theorem emit_stack (e : DisplayEvent) : (s.emit e).stack = s.stack := rfl
@[simp] theorem emit_dt (e : DisplayEvent) : (s.emit e).dt = s.dt := rfl
@[simp] theorem emit_st (e : DisplayEvent) : (s.emit e).st = s.st := rfl
@[simp] theorem emit_mem (e : DisplayEvent) : (s.emit e).mem = s.mem := rfl
@[simp] theorem emit_paused (e : DisplayEvent) : (s.emit e).paused = s.paused := rfl
@[simp] theorem emit_waitKey (e : DisplayEvent) : (s.emit e).waitKey = s.waitKey := rfl
@[simp] theorem emit_anom (e : DisplayEvent) : (s.emit e).anom = s.anom := rfl
@[simp] theorem emit_log (e : DisplayEvent) : (s.emit e).log = s.log := rfl
@[simp] theorem emit_stop (e : DisplayEvent) : (s.emit e).stop = s.stop := rfl
@[simp] theorem emit_fb (e : DisplayEvent) : (s.emit e).fb = s.fb := rfl
@[simp] theorem emit_display (e : DisplayEvent) : (s.emit e).display = s.display ++ [e] := rfl
@[simp] theorem emit_pauseToggle (e : DisplayEvent) : (s.emit e).pauseToggle = s.pauseToggle := rfl
@[simp] theorem emit_keyEvent (e : DisplayEvent) : (s.emit e).keyEvent = s.keyEvent := rfl
@[simp] theorem emit_randIn (e : DisplayEvent) : (s.emit e).randIn = s.randIn := rfl
@[simp] theorem emit_keyDownIn (e : DisplayEvent) : (s.emit e).keyDownIn = s.keyDownIn := rfl
@[simp] theorem emit_keyUpIn (e : DisplayEvent) : (s.emit e).keyUpIn = s.keyUpIn := rfl
@[simp] theorem emit_agenda (e : DisplayEvent) : (s.emit e).agenda = s.agenda := rfl
@[simp] theorem emit_draws (e : DisplayEvent) : (s.emit e).draws = s.draws := rfl
@[simp] theorem getV_emit (e : DisplayEvent) (q : Reg) : (s.emit e).getV q = s.getV q := rfl
@[simp] theorem byteAt_emit (e : DisplayEvent) (q : Word) : (s.emit e).byteAt q = s.byteAt q := rfl
@[simp] theorem dataAddr_emit (e : DisplayEvent) (k : Nat) : (s.emit e).dataAddr k = s.dataAddr k := rfl

/-! ### takeRand -/

@[simp] theorem takeRand_v : (s.takeRand).v = s.v := rfl
@[simp] theorem takeRand_i : (s.takeRand).i = s.i := rfl
@[simp] theorem takeRand_pc : (s.takeRand).pc = s.pc := rfl
@[simp] theorem takeRand_sp : (s.takeRand).sp = s.sp := rfl
@[simp] theorem takeRand_stack : (s.takeRand).stack = s.stack := rfl
@[simp] theorem takeRand_dt : (s.takeRand).dt = s.dt := rfl
@[simp] theorem takeRand_st : (s.takeRand).st = s.st := rfl
@[simp] theorem takeRand_mem : (s.takeRand).mem = s.mem := rfl
@[simp] theorem takeRand_paused : (s.takeRand).paused = s.paused := rfl
@[simp] theorem takeRand_waitKey : (s.takeRand).waitKey = s.waitKey := rfl
@[simp] theorem takeRand_anom : (s.takeRand).anom = s.anom := rfl
@[simp] theorem takeRand_log : (s.takeRand).log = s.log := rfl
@[simp] theorem takeRand_stop : (s.takeRand).stop = s.stop := rfl
@[simp] theorem takeRand_fb : (s.takeRand).fb = s.fb := rfl
@[simp] theorem takeRand_display : (s.takeRand).display = s.display := rfl
@[simp] theorem takeRand_pauseToggle : (s.takeRand).pauseToggle = s.pauseToggle := rfl
@[simp] theorem takeRand_keyEvent : (s.takeRand).keyEvent = s.keyEvent := rfl
@[simp] theorem takeRand_randIn : (s.takeRand).randIn = s.randIn.tail := rfl
@[simp] theorem takeRand_keyDownIn : (s.takeRand).keyDownIn = s.keyDownIn := rfl
@[simp] theorem takeRand_keyUpIn : (s.takeRand).keyUpIn = s.keyUpIn := rfl
@[simp] theorem takeRand_agenda : (s.takeRand).agenda = s.agenda := rfl
@[simp] theorem takeRand_draws : (s.takeRand).draws = s.draws + 1 := rfl
@[simp] theorem getV_takeRand (q : Reg) : (s.takeRand).getV q = s.getV q := rfl
@[simp] theorem byteAt_takeRand (q : Word) : (s.takeRand).byteAt q = s.byteAt q := rfl
@[simp] theorem dataAddr_takeRand (k : Nat) : (s.takeRand).dataAddr k = s.dataAddr k := rfl

/-! ### takeKeyDown -/

@[simp] theorem takeKeyDown_v : (s.takeKeyDown).v = s.v := rfl
@[simp] theorem takeKeyDown_i : (s.takeKeyDown).i = s.i := rfl
@[simp] theorem takeKeyDown_pc : (s.takeKeyDown).pc = s.pc := rfl
@[simp] theorem takeKeyDown_sp : (s.takeKeyDown).sp = s.sp := rfl
@[simp] theorem takeKeyDown_stack : (s.takeKeyDown).stack = s.stack := rfl
@[simp] theorem takeKeyDown_dt : (s.takeKeyDown).dt = s.dt := rfl
@[simp] theorem takeKeyDown_st : (s.takeKeyDown).st = s.st := rfl
@[simp] theorem takeKeyDown_mem : (s.takeKeyDown).mem = s.mem := rfl
@[simp] theorem takeKeyDown_paused : (s.takeKeyDown).paused = s.paused := rfl
@[simp] theorem takeKeyDown_waitKey : (s.takeKeyDown).waitKey = s.waitKey := rfl
@[simp] theorem takeKeyDown_anom : (s.takeKeyDown).anom = s.anom := rfl
@[simp] theorem takeKeyDown_log : (s.takeKeyDown).log = s.log := rfl
@[simp] theorem takeKeyDown_stop : (s.takeKeyDown).stop = s.stop := rfl
@[simp] theorem takeKeyDown_fb : (s.takeKeyDown).fb = s.fb := rfl
@[simp] theorem takeKeyDown_display : (s.takeKeyDown).display = s.display := rfl
@[simp] theorem takeKeyDown_pauseToggle : (s.takeKeyDown).pauseToggle = s.pauseToggle := rfl
@[simp] theorem takeKeyDown_keyEvent : (s.takeKeyDown).keyEvent = s.keyEvent := rfl
@[simp] theorem takeKeyDown_randIn : (s.takeKeyDown).randIn = s.randIn := rfl
@[simp] theorem takeKeyDown_keyDownIn : (s.takeKeyDown).keyDownIn = s.keyDownIn.tail := rfl
@[simp] theorem takeKeyDown_keyUpIn : (s.takeKeyDown).keyUpIn = s.keyUpIn := rfl
@[simp] theorem takeKeyDown_agenda : (s.takeKeyDown).agenda = s.agenda := rfl
@[simp] theorem takeKeyDown_draws : (s.takeKeyDown).draws = s.draws + 1 := rfl
@[simp] theorem getV_takeKeyDown (q : Reg) : (s.takeKeyDown).getV q = s.getV q := rfl
@[simp] theorem byteAt_takeKeyDown (q : Word) : (s.takeKeyDown).byteAt q = s.byteAt q := rfl
@[simp] theorem dataAddr_takeKeyDown (k : Nat) : (s.takeKeyDown).dataAddr k = s.dataAddr k := rfl

/-! ### takeKeyUp -/

@[simp] theorem takeKeyUp_v : (s.takeKeyUp).v = s.v := rfl
@[simp] theorem takeKeyUp_i : (s.takeKeyUp).i = s.i := rfl
@[simp] theorem takeKeyUp_pc : (s.takeKeyUp).pc = s.pc := rfl
@[simp] theorem takeKeyUp_sp : (s.takeKeyUp).sp = s.sp := rfl
@[simp] theorem takeKeyUp_stack : (s.takeKeyUp).stack = s.stack := rfl
@[simp] theorem takeKeyUp_dt : (s.takeKeyUp).dt = s.dt := rfl
@[simp] theorem takeKeyUp_st : (s.takeKeyUp).st = s.st := rfl
@[simp] theorem takeKeyUp_mem : (s.takeKeyUp).mem = s.mem := rfl
@[simp] theorem takeKeyUp_paused : (s.takeKeyUp).paused = s.paused := rfl
@[simp] theorem takeKeyUp_waitKey : (s.takeKeyUp).waitKey = s.waitKey := rfl
@[simp] theorem takeKeyUp_anom : (s.takeKeyUp).anom = s.anom := rfl
@[simp] theorem takeKeyUp_log : (s.takeKeyUp).log = s.log := rfl
@[simp] theorem takeKeyUp_stop : (s.takeKeyUp).stop = s.stop := rfl
@[simp] theorem takeKeyUp_fb : (s.takeKeyUp).fb = s.fb := rfl
@[simp] theorem takeKeyUp_display : (s.takeKeyUp).display = s.display := rfl
@[simp] theorem takeKeyUp_pauseToggle : (s.takeKeyUp).pauseToggle = s.pauseToggle := rfl
@[simp] theorem takeKeyUp_keyEvent : (s.takeKeyUp).keyEvent = s.keyEvent := rfl
@[simp] theorem takeKeyUp_randIn : (s.takeKeyUp).randIn = s.randIn := rfl
@[simp] theorem takeKeyUp_keyDownIn : (s.takeKeyUp).keyDownIn = s.keyDownIn := rfl
@[simp] theorem takeKeyUp_keyUpIn : (s.takeKeyUp).keyUpIn = s.keyUpIn.tail := rfl
@[simp] theorem takeKeyUp_agenda : (s.takeKeyUp).agenda = s.agenda := rfl
@[simp] theorem takeKeyUp_draws : (s.takeKeyUp).draws = s.draws + 1 := rfl
@[simp] theorem getV_takeKeyUp (q : Reg) : (s.takeKeyUp).getV q = s.getV q := rfl
@[simp] theorem byteAt_takeKeyUp (q : Word) : (s.takeKeyUp).byteAt q = s.byteAt q := rfl
@[simp] theorem dataAddr_takeKeyUp (k : Nat) : (s.takeKeyUp).dataAddr k = s.dataAddr k := rfl

/-! ### hold -/

@[simp] theorem hold_v (x : Reg) : (s.hold x).v = s.v := rfl
@[simp] theorem hold_i (x : Reg) : (s.hold x).i = s.i := rfl
@[simp] theorem hold_pc (x : Reg) : (s.hold x).pc = s.pc := rfl
@[simp] theorem hold_sp (x : Reg) : (s.hold x).sp = s.sp := rfl
@[simp] theorem hold_stack (x : Reg) : (s.hold x).stack = s.stack := rfl
@[simp] theorem hold_dt (x : Reg) : (s.hold x).dt = s.dt := rfl
@[simp] theorem hold_st (x : Reg) : (s.hold x).st = s.st := rfl
@[simp] theorem hold_mem (x : Reg) : (s.hold x).mem = s.mem := rfl
@[simp] theorem hold_paused (x : Reg) : (s.hold x).paused = s.paused := rfl
@[simp] theorem hold_waitKey (x : Reg) : (s.hold x).waitKey = some x := rfl
@[simp] theorem hold_anom (x : Reg) : (s.hold x).anom = s.anom := rfl
@[simp] theorem hold_log (x : Reg) : (s.hold x).log = s.log := rfl
@[simp] theorem hold_stop (x : Reg) : (s.hold x).stop = s.stop := rfl
@[simp] theorem hold_fb (x : Reg) : (s.hold x).fb = s.fb := rfl
@[simp] theorem hold_display (x : Reg) : (s.hold x).display = s.display := rfl
@[simp] theorem hold_pauseToggle (x : Reg) : (s.hold x).pauseToggle = s.pauseToggle := rfl
@[simp] theorem hold_keyEvent (x : Reg) : (s.hold x).keyEvent = s.keyEvent := rfl
@[simp] theorem hold_randIn (x : Reg) : (s.hold x).randIn = s.randIn := rfl
@[simp] theorem hold_keyDownIn (x : Reg) : (s.hold x).keyDownIn = s.keyDownIn := rfl
@[simp] theorem hold_keyUpIn (x : Reg) : (s.hold x).keyUpIn = s.keyUpIn := rfl
@[simp] theorem hold_agenda (x : Reg) : (s.hold x).agenda = s.agenda := rfl
@[simp] theorem hold_draws (x : Reg) : (s.hold x).draws = s.draws := rfl
@[simp] theorem getV_hold (x : Reg) (q : Reg) : (s.hold x).getV q = s.getV q := rfl
@[simp] theorem byteAt_hold (x : Reg) (q : Word) : (s.hold x).byteAt q = s.byteAt q := rfl
@[simp] theorem dataAddr_hold (x : Reg) (k : Nat) : (s.hold x).dataAddr k = s.dataAddr k := rfl

/-! ### offerKey -/

@[simp] theorem offerKey_v (key : Key) : (s.offerKey key).v = s.v := rfl
@[simp] theorem offerKey_i (key : Key) : (s.offerKey key).i = s.i := rfl
@[simp] theorem offerKey_pc (key : Key) : (s.offerKey key).pc = s.pc := rfl
@[simp] theorem offerKey_sp (key : Key) : (s.offerKey key).sp = s.sp := rfl
@[simp] theorem offerKey_stack (key : Key) : (s.offerKey key).stack = s.stack := rfl
@[simp] theorem offerKey_dt (key : Key) : (s.offerKey key).dt = s.dt := rfl
@[simp] theorem offerKey_st (key : Key) : (s.offerKey key).st = s.st := rfl
@[simp] theorem offerKey_mem (key : Key) : (s.offerKey key).mem = s.mem := rfl
@[simp] theorem offerKey_paused (key : Key) : (s.offerKey key).paused = s.paused := rfl
@[simp] theorem offerKey_waitKey (key : Key) : (s.offerKey key).waitKey = s.waitKey := rfl
@[simp] theorem offerKey_anom (key : Key) : (s.offerKey key).anom = s.anom := rfl
@[simp] theorem offerKey_log (key : Key) : (s.offerKey key).log = s.log := rfl
@[simp] theorem offerKey_stop (key : Key) : (s.offerKey key).stop = s.stop := rfl
@[simp] theorem offerKey_fb (key : Key) : (s.offerKey key).fb = s.fb := rfl
@[simp] theorem offerKey_display (key : Key) : (s.offerKey key).display = s.display := rfl
@[simp] theorem offerKey_pauseToggle (key : Key) : (s.offerKey key).pauseToggle = s.pauseToggle := rfl
@[simp] theorem offerKey_keyEvent (key : Key) : (s.offerKey key).keyEvent = some key := rfl
@[simp] theorem offerKey_randIn (key : Key) : (s.offerKey key).randIn = s.randIn := rfl
@[simp] theorem offerKey_keyDownIn (key : Key) : (s.offerKey key).keyDownIn = s.keyDownIn := rfl
@[simp] theorem offerKey_keyUpIn (key : Key) : (s.offerKey key).keyUpIn = s.keyUpIn := rfl
@[simp] theorem offerKey_agenda (key : Key) : (s.offerKey key).agenda = s.agenda := rfl
@[simp] theorem offerKey_draws (key : Key) : (s.offerKey key).draws = s.draws := rfl
@[simp] theorem getV_offerKey (key : Key) (q : Reg) : (s.offerKey key).getV q = s.getV q := rfl
@[simp] theorem byteAt_offerKey (key : Key) (q : Word) : (s.offerKey key).byteAt q = s.byteAt q := rfl
@[simp] theorem dataAddr_offerKey (key : Key) (k : Nat) : (s.offerKey key).dataAddr k = s.dataAddr k := rfl

/-! ### release -/

@[simp] theorem release_v : (s.release).v = s.v := rfl
@[simp] theorem release_i : (s.release).i = s.i := rfl
@[simp] theorem release_pc : (s.release).pc = s.pc := rfl
@[simp] theorem release_sp : (s.release).sp = s.sp := rfl
@[simp] theorem release_stack : (s.release).stack = s.stack := rfl
@[simp] theorem release_dt : (s.release).dt = s.dt := rfl
@[simp] theorem release_st : (s.release).st = s.st := rfl
@[simp] theorem release_mem : (s.release).mem = s.mem := rfl
@[simp] theorem release_paused : (s.release).paused = s.paused := rfl
@[simp] theorem release_waitKey : (s.release).waitKey = none := rfl
@[simp] theorem release_anom : (s.release).anom = s.anom := rfl
@[simp] theorem release_log : (s.release).log = s.log := rfl
@[simp] theorem release_stop : (s.release).stop = s.stop := rfl
@[simp] theorem release_fb : (s.release).fb = s.fb := rfl
@[simp] theorem release_display : (s.release).display = s.display := rfl
@[simp] theorem release_pauseToggle : (s.release).pauseToggle = s.pauseToggle := rfl
@[simp] theorem release_keyEvent : (s.release).keyEvent = none := rfl
@[simp] theorem release_randIn : (s.release).randIn = s.randIn := rfl
@[simp] theorem release_keyDownIn : (s.release).keyDownIn = s.keyDownIn := rfl
@[simp] theorem release_keyUpIn : (s.release).keyUpIn = s.keyUpIn := rfl
@[simp] theorem release_agenda : (s.release).agenda = s.agenda := rfl
@[simp] theorem release_draws : (s.release).draws = s.draws := rfl
@[simp] theorem getV_release (q : Reg) : (s.release).getV q = s.getV q := rfl
@[simp] theorem byteAt_release (q : Word) : (s.release).byteAt q = s.byteAt q := rfl
@[simp] theorem dataAddr_release (k : Nat) : (s.release).dataAddr k = s.dataAddr k := rfl

/-! ### raiseToggle -/

@[simp] theorem raiseToggle_v : (s.raiseToggle).v = s.v := rfl
@[simp] theorem raiseToggle_i : (s.raiseToggle).i = s.i := rfl
@[simp] theorem raiseToggle_pc : (s.raiseToggle).pc = s.pc := rfl
@[simp] theorem raiseToggle_sp : (s.raiseToggle).sp = s.sp := rfl
@[simp] theorem raiseToggle_stack : (s.raiseToggle).stack = s.stack := rfl
@[simp] theorem raiseToggle_dt : (s.raiseToggle).dt = s.dt := rfl
@[simp] theorem raiseToggle_st : (s.raiseToggle).st = s.st := rfl
@[simp] theorem raiseToggle_mem : (s.raiseToggle).mem = s.mem := rfl
@[simp] theorem raiseToggle_paused : (s.raiseToggle).paused = s.paused := rfl
@[simp] theorem raiseToggle_waitKey : (s.raiseToggle).waitKey = s.waitKey := rfl
@[simp] theorem raiseToggle_anom : (s.raiseToggle).anom = s.anom := rfl
@[simp] theorem raiseToggle_log : (s.raiseToggle).log = s.log := rfl
@[simp] theorem raiseToggle_stop : (s.raiseToggle).stop = s.stop := rfl
@[simp] theorem raiseToggle_fb : (s.raiseToggle).fb = s.fb := rfl
@[simp] theorem raiseToggle_display : (s.raiseToggle).display = s.display := rfl
@[simp] theorem raiseToggle_pauseToggle : (s.raiseToggle).pauseToggle = true := rfl
@[simp] theorem raiseToggle_keyEvent : (s.raiseToggle).keyEvent = s.keyEvent := rfl
@[simp] theorem raiseToggle_randIn : (s.raiseToggle).randIn = s.randIn := rfl
@[simp] theorem raiseToggle_keyDownIn : (s.raiseToggle).keyDownIn = s.keyDownIn := rfl
@[simp] theorem raiseToggle_keyUpIn : (s.raiseToggle).keyUpIn = s.keyUpIn := rfl
@[simp] theorem raiseToggle_agenda : (s.raiseToggle).agenda = s.agenda := rfl
@[simp] theorem raiseToggle_draws : (s.raiseToggle).draws = s.draws := rfl
@[simp] theorem getV_raiseToggle (q : Reg) : (s.raiseToggle).getV q = s.getV q := rfl
@[simp] theorem byteAt_raiseToggle (q : Word) : (s.raiseToggle).byteAt q = s.byteAt q := rfl
@[simp] theorem dataAddr_raiseToggle (k : Nat) : (s.raiseToggle).dataAddr k = s.dataAddr k := rfl

/-! ### samplePause -/

@[simp] theorem samplePause_v : (s.samplePause).v = s.v := rfl
@[simp] theorem samplePause_i : (s.samplePause).i = s.i := rfl
@[simp] theorem samplePause_pc : (s.samplePause).pc = s.pc := rfl
@[simp] theorem samplePause_sp : (s.samplePause).sp = s.sp := rfl
@[simp] theorem samplePause_stack : (s.samplePause).stack = s.stack := rfl
@[simp] theorem samplePause_dt : (s.samplePause).dt = s.dt := rfl
@[simp] theorem samplePause_st : (s.samplePause).st = s.st := rfl
@[simp] theorem samplePause_mem : (s.samplePause).mem = s.mem := rfl
@[simp] theorem samplePause_paused : (s.samplePause).paused = (s.paused != s.pauseToggle) := rfl
@[simp] theorem samplePause_waitKey : (s.samplePause).waitKey = s.waitKey := rfl
@[simp] theorem samplePause_anom : (s.samplePause).anom = s.anom := rfl
@[simp] theorem samplePause_log : (s.samplePause).log = s.log := rfl
@[simp] theorem samplePause_stop : (s.samplePause).stop = s.stop := rfl
@[simp] theorem samplePause_fb : (s.samplePause).fb = s.fb := rfl
@[simp] theorem samplePause_display : (s.samplePause).display = s.display := rfl
@[simp] theorem samplePause_pauseToggle : (s.samplePause).pauseToggle = false := rfl
@[simp] theorem samplePause_keyEvent : (s.samplePause).keyEvent = s.keyEvent := rfl
@[simp] theorem samplePause_randIn : (s.samplePause).randIn = s.randIn := rfl
@[simp] theorem samplePause_keyDownIn : (s.samplePause).keyDownIn = s.keyDownIn := rfl
@[simp] theorem samplePause_keyUpIn : (s.samplePause).keyUpIn = s.keyUpIn := rfl
@[simp] theorem samplePause_agenda : (s.samplePause).agenda = s.agenda := rfl
@[simp] theorem samplePause_draws : (s.samplePause).draws = s.draws := rfl
@[simp] theorem getV_samplePause (q : Reg) : (s.samplePause).getV q = s.getV q := rfl
@[simp] theorem byteAt_samplePause (q : Word) : (s.samplePause).byteAt q = s.byteAt q := rfl
@[simp] theorem dataAddr_samplePause (k : Nat) : (s.samplePause).dataAddr k = s.dataAddr k := rfl

/-! ### setStop -/

@[simp] theorem setStop_v : (s.setStop).v = s.v := rfl
@[simp] theorem setStop_i : (s.setStop).i = s.i := rfl
@[simp] theorem setStop_pc : (s.setStop).pc = s.pc := rfl
@[simp] theorem setStop_sp : (s.setStop).sp = s.sp := rfl
@[simp] theorem setStop_stack : (s.setStop).stack = s.stack := rfl
@[simp] theorem setStop_dt : (s.setStop).dt = s.dt := rfl
@[simp] theorem setStop_st : (s.setStop).st = s.st := rfl
@[simp] theorem setStop_mem : (s.setStop).mem = s.mem := rfl
@[simp] theorem setStop_paused : (s.setStop).paused = s.paused := rfl
@[simp] theorem setStop_waitKey : (s.setStop).waitKey = s.waitKey := rfl
@[simp] theorem setStop_anom : (s.setStop).anom = s.anom := rfl
@[simp] theorem setStop_log : (s.setStop).log = s.log := rfl
@[simp] theorem setStop_stop : (s.setStop).stop = true := rfl
@[simp] theorem setStop_fb : (s.setStop).fb = s.fb := rfl
@[simp] theorem setStop_display : (s.setStop).display = s.display := rfl
@[simp] theorem setStop_pauseToggle : (s.setStop).pauseToggle = s.pauseToggle := rfl
@[simp] theorem setStop_keyEvent : (s.setStop).keyEvent = s.keyEvent := rfl
@[simp] theorem setStop_randIn : (s.setStop).randIn = s.randIn := rfl
@[simp] theorem setStop_keyDownIn : (s.setStop).keyDownIn = s.keyDownIn := rfl
@[simp] theorem setStop_keyUpIn : (s.setStop).keyUpIn = s.keyUpIn := rfl
@[simp] theorem setStop_agenda : (s.setStop).agenda = s.agenda := rfl
@[simp] theorem setStop_draws : (s.setStop).draws = s.draws := rfl
@[simp] theorem getV_setStop (q : Reg) : (s.setStop).getV q = s.getV q := rfl
@[simp] theorem byteAt_setStop (q : Word) : (s.setStop).byteAt q = s.byteAt q := rfl
@[simp] theorem dataAddr_setStop (k : Nat) : (s.setStop).dataAddr k = s.dataAddr k := rfl

/-! ### dropTurn -/

@[simp] theorem dropTurn_v : (s.dropTurn).v = s.v := rfl
@[simp] theorem dropTurn_i : (s.dropTurn).i = s.i := rfl
@[simp] theorem dropTurn_pc : (s.dropTurn).pc = s.pc := rfl
@[simp] theorem dropTurn_sp : (s.dropTurn).sp = s.sp := rfl
@[simp] theorem dropTurn_stack : (s.dropTurn).stack = s.stack := rfl
@[simp] theorem dropTurn_dt : (s.dropTurn).dt = s.dt := rfl
@[simp] theorem dropTurn_st : (s.dropTurn).st = s.st := rfl
@[simp] theorem dropTurn_mem : (s.dropTurn).mem = s.mem := rfl
@[simp] theorem dropTurn_paused : (s.dropTurn).paused = s.paused := rfl
@[simp] theorem dropTurn_waitKey : (s.dropTurn).waitKey = s.waitKey := rfl
@[simp] theorem dropTurn_anom : (s.dropTurn).anom = s.anom := rfl
@[simp] theorem dropTurn_log : (s.dropTurn).log = s.log := rfl
@[simp] theorem dropTurn_stop : (s.dropTurn).stop = s.stop := rfl
@[simp] theorem dropTurn_fb : (s.dropTurn).fb = s.fb := rfl
@[simp] theorem dropTurn_display : (s.dropTurn).display = s.display := rfl
@[simp] theorem dropTurn_pauseToggle : (s.dropTurn).pauseToggle = s.pauseToggle := rfl
@[simp] theorem dropTurn_keyEvent : (s.dropTurn).keyEvent = s.keyEvent := rfl
@[simp] theorem dropTurn_randIn : (s.dropTurn).randIn = s.randIn := rfl
@[simp] theorem dropTurn_keyDownIn : (s.dropTurn).keyDownIn = s.keyDownIn := rfl
@[simp] theorem dropTurn_keyUpIn : (s.dropTurn).keyUpIn = s.keyUpIn := rfl
@[simp] theorem dropTurn_agenda : (s.dropTurn).agenda = s.agenda.tail := rfl
@[simp] theorem dropTurn_draws : (s.dropTurn).draws = s.draws := rfl
@[simp] theorem getV_dropTurn (q : Reg) : (s.dropTurn).getV q = s.getV q := rfl
@[simp] theorem byteAt_dropTurn (q : Word) : (s.dropTurn).byteAt q = s.byteAt q := rfl
@[simp] theorem dataAddr_dropTurn (k : Nat) : (s.dropTurn).dataAddr k = s.dataAddr k := rfl

/-! ### Operations that only log: every field but anom and log is kept -/

@[simp] theorem noteAccess_v (a : Word) : (s.noteAccess a).v = s.v := by unfold noteAccess; split <;> rfl
@[simp] theorem noteAccess_i (a : Word) : (s.noteAccess a).i = s.i := by unfold noteAccess; split <;> rfl
@[simp] theorem noteAccess_pc (a : Word) : (s.noteAccess a).pc = s.pc := by unfold noteAccess; split <;> rfl
@[simp] theorem noteAccess_sp (a : Word) : (s.noteAccess a).sp = s.sp := by unfold noteAccess; split <;> rfl
@[simp] theorem noteAccess_stack (a : Word) : (s.noteAccess a).stack = s.stack := by unfold noteAccess; split <;> rfl
@[simp] theorem noteAccess_dt (a : Word) : (s.noteAccess a).dt = s.dt := by unfold noteAccess; split <;> rfl
@[simp] theorem noteAccess_st (a : Word) : (s.noteAccess a).st = s.st := by unfold noteAccess; split <;> rfl
@[simp] theorem noteAccess_mem (a : Word) : (s.noteAccess a).mem = s.mem := by unfold noteAccess; split <;> rfl
@[simp] theorem noteAccess_paused (a : Word) : (s.noteAccess a).paused = s.paused := by unfold noteAccess; split <;> rfl
@[simp] theorem noteAccess_waitKey (a : Word) : (s.noteAccess a).waitKey = s.waitKey := by unfold noteAccess; split <;> rfl
@[simp] theorem noteAccess_stop (a : Word) : (s.noteAccess a).stop = s.stop := by unfold noteAccess; split <;> rfl
@[simp] theorem noteAccess_fb (a : Word) : (s.noteAccess a).fb = s.fb := by unfold noteAccess; split <;> rfl
@[simp] theorem noteAccess_display (a : Word) : (s.noteAccess a).display = s.display := by unfold noteAccess; split <;> rfl
@[simp] theorem noteAccess_pauseToggle (a : Word) : (s.noteAccess a).pauseToggle = s.pauseToggle := by unfold noteAccess; split <;> rfl
@[simp] theorem noteAccess_keyEvent (a : Word) : (s.noteAccess a).keyEvent = s.keyEvent := by unfold noteAccess; split <;> rfl
@[simp] theorem noteAccess_randIn (a : Word) : (s.noteAccess a).randIn = s.randIn := by unfold noteAccess; split <;> rfl
@[simp] theorem noteAccess_keyDownIn (a : Word) : (s.noteAccess a).keyDownIn = s.keyDownIn := by unfold noteAccess; split <;> rfl
@[simp] theorem noteAccess_keyUpIn (a : Word) : (s.noteAccess a).keyUpIn = s.keyUpIn := by unfold noteAccess; split <;> rfl
@[simp] theorem noteAccess_agenda (a : Word) : (s.noteAccess a).agenda = s.agenda := by unfold noteAccess; split <;> rfl
@[simp] theorem noteAccess_draws (a : Word) : (s.noteAccess a).draws = s.draws := by unfold noteAccess; split <;> rfl
@[simp] theorem getV_noteAccess (a : Word) (q : Reg) : (s.noteAccess a).getV q = s.getV q := by simp [getV]
@[simp] theorem byteAt_noteAccess (a : Word) (q : Word) : (s.noteAccess a).byteAt q = s.byteAt q := by simp [byteAt]
@[simp] theorem dataAddr_noteAccess (a : Word) (k : Nat) : (s.noteAccess a).dataAddr k = s.dataAddr k := by simp [dataAddr]

@[simp] theorem noteOperand_v (b : Byte) : (s.noteOperand b).v = s.v := by unfold noteOperand; split <;> rfl
@[simp] theorem noteOperand_i (b : Byte) : (s.noteOperand b).i = s.i := by unfold noteOperand; split <;> rfl
@[simp] theorem noteOperand_pc (b : Byte) : (s.noteOperand b).pc = s.pc := by unfold noteOperand; split <;> rfl
@[simp] theorem noteOperand_sp (b : Byte) : (s.noteOperand b).sp = s.sp := by unfold noteOperand; split <;> rfl
@[simp] theorem noteOperand_stack (b : Byte) : (s.noteOperand b).stack = s.stack := by unfold noteOperand; split <;> rfl
@[simp] theorem noteOperand_dt (b : Byte) : (s.noteOperand b).dt = s.dt := by unfold noteOperand; split <;> rfl
@[simp] theorem noteOperand_st (b : Byte) : (s.noteOperand b).st = s.st := by unfold noteOperand; split <;> rfl
@[simp] theorem noteOperand_mem (b : Byte) : (s.noteOperand b).mem = s.mem := by unfold noteOperand; split <;> rfl
@[simp] theorem noteOperand_paused (b : Byte) : (s.noteOperand b).paused = s.paused := by unfold noteOperand; split <;> rfl
@[simp] theorem noteOperand_waitKey (b : Byte) : (s.noteOperand b).waitKey = s.waitKey := by unfold noteOperand; split <;> rfl
@[simp] theorem noteOperand_stop (b : Byte) : (s.noteOperand b).stop = s.stop := by unfold noteOperand; split <;> rfl
@[simp] theorem noteOperand_fb (b : Byte) : (s.noteOperand b).fb = s.fb := by unfold noteOperand; split <;> rfl
@[simp] theorem noteOperand_display (b : Byte) : (s.noteOperand b).display = s.display := by unfold noteOperand; split <;> rfl
@[simp] theorem noteOperand_pauseToggle (b : Byte) : (s.noteOperand b).pauseToggle = s.pauseToggle := by unfold noteOperand; split <;> rfl
@[simp] theorem noteOperand_keyEvent (b : Byte) : (s.noteOperand b).keyEvent = s.keyEvent := by unfold noteOperand; split <;> rfl
@[simp] theorem noteOperand_randIn (b : Byte) : (s.noteOperand b).randIn = s.randIn := by unfold noteOperand; split <;> rfl
@[simp] theorem noteOperand_keyDownIn (b : Byte) : (s.noteOperand b).keyDownIn = s.keyDownIn := by unfold noteOperand; split <;> rfl
@[simp] theorem noteOperand_keyUpIn (b : Byte) : (s.noteOperand b).keyUpIn = s.keyUpIn := by unfold noteOperand; split <;> rfl
@[simp] theorem noteOperand_agenda (b : Byte) : (s.noteOperand b).agenda = s.agenda := by unfold noteOperand; split <;> rfl
@[simp] theorem noteOperand_draws (b : Byte) : (s.noteOperand b).draws = s.draws := by unfold noteOperand; split <;> rfl
@[simp] theorem getV_noteOperand (b : Byte) (q : Reg) : (s.noteOperand b).getV q = s.getV q := by simp [getV]
@[simp] theorem byteAt_noteOperand (b : Byte) (q : Word) : (s.noteOperand b).byteAt q = s.byteAt q := by simp [byteAt]
@[simp] theorem dataAddr_noteOperand (b : Byte) (k : Nat) : (s.noteOperand b).dataAddr k = s.dataAddr k := by simp [dataAddr]

@[simp] theorem memWrite_eq (a : Word) (b : Byte) : s.memWrite a b = (s.noteAccess a).pokeByte a b := rfl

/-! ### noteRun -/

@[simp] theorem noteRun_v (a : Word) (n : Nat) : (s.noteRun a n).v = s.v := by
  induction n with
  | zero => rfl
  | succ n ih => simpa [noteRun] using ih
@[simp] theorem noteRun_i (a : Word) (n : Nat) : (s.noteRun a n).i = s.i := by
  induction n with
  | zero => rfl
  | succ n ih => simpa [noteRun] using ih
@[simp] theorem noteRun_pc (a : Word) (n : Nat) : (s.noteRun a n).pc = s.pc := by
  induction n with
  | zero => rfl
  | succ n ih => simpa [noteRun] using ih
@[simp] theorem noteRun_sp (a : Word) (n : Nat) : (s.noteRun a n).sp = s.sp := by
  induction n with
  | zero => rfl
  | succ n ih => simpa [noteRun] using ih
@[simp] theorem noteRun_stack (a : Word) (n : Nat) : (s.noteRun a n).stack = s.stack := by
  induction n with
  | zero => rfl
  | succ n ih => simpa [noteRun] using ih
@[simp] theorem noteRun_dt (a : Word) (n : Nat) : (s.noteRun a n).dt = s.dt := by
  induction n with
  | zero => rfl
  | succ n ih => simpa [noteRun] using ih
@[simp] theorem noteRun_st (a : Word) (n : Nat) : (s.noteRun a n).st = s.st := by
  induction n with
  | zero => rfl
  | succ n ih => simpa [noteRun] using ih
@[simp] theorem noteRun_mem (a : Word) (n : Nat) : (s.noteRun a n).mem = s.mem := by
  induction n with
  | zero => rfl
  | succ n ih => simpa [noteRun] using ih
@[simp] theorem noteRun_paused (a : Word) (n : Nat) : (s.noteRun a n).paused = s.paused := by
  induction n with
  | zero => rfl
  | succ n ih => simpa [noteRun] using ih
@[simp] theorem noteRun_waitKey (a : Word) (n : Nat) : (s.noteRun a n).waitKey = s.waitKey := by
  induction n with
  | zero => rfl
  | succ n ih => simpa [noteRun] using ih
@[simp] theorem noteRun_stop (a : Word) (n : Nat) : (s.noteRun a n).stop = s.stop := by
  induction n with
  | zero => rfl
  | succ n ih => simpa [noteRun] using ih
@[simp] theorem noteRun_fb (a : Word) (n : Nat) : (s.noteRun a n).fb = s.fb := by
  induction n with
  | zero => rfl
  | succ n ih => simpa [noteRun] using ih
@[simp] theorem noteRun_display (a : Word) (n : Nat) : (s.noteRun a n).display = s.display := by
  induction n with
  | zero => rfl
  | succ n ih => simpa [noteRun] using ih
@[simp] theorem noteRun_pauseToggle (a : Word) (n : Nat) : (s.noteRun a n).pauseToggle = s.pauseToggle := by
  induction n with
  | zero => rfl
  | succ n ih => simpa [noteRun] using ih
@[simp] theorem noteRun_keyEvent (a : Word) (n : Nat) : (s.noteRun a n).keyEvent = s.keyEvent := by
  induction n with
  | zero => rfl
  | succ n ih => simpa [noteRun] using ih
@[simp] theorem noteRun_randIn (a : Word) (n : Nat) : (s.noteRun a n).randIn = s.randIn := by
  induction n with
  | zero => rfl
  | succ n ih => simpa [noteRun] using ih
@[simp] theorem noteRun_keyDownIn (a : Word) (n : Nat) : (s.noteRun a n).keyDownIn = s.keyDownIn := by
  induction n with
  | zero => rfl
  | succ n ih => simpa [noteRun] using ih
@[simp] theorem noteRun_keyUpIn (a : Word) (n : Nat) : (s.noteRun a n).keyUpIn = s.keyUpIn := by
  induction n with
  | zero => rfl
  | succ n ih => simpa [noteRun] using ih
@[simp] theorem noteRun_agenda (a : Word) (n : Nat) : (s.noteRun a n).agenda = s.agenda := by
  induction n with
  | zero => rfl
  | succ n ih => simpa [noteRun] using ih
@[simp] theorem noteRun_draws (a : Word) (n : Nat) : (s.noteRun a n).draws = s.draws := by
  induction n with
  | zero => rfl
  | succ n ih => simpa [noteRun] using ih
@[simp] theorem getV_noteRun (a : Word) (n : Nat) (q : Reg) : (s.noteRun a n).getV q = s.getV q := by simp [getV]
@[simp] theorem byteAt_noteRun (a : Word) (n : Nat) (q : Word) : (s.noteRun a n).byteAt q = s.byteAt q := by simp [byteAt]
@[simp] theorem dataAddr_noteRun (a : Word) (n : Nat) (k : Nat) : (s.noteRun a n).dataAddr k = s.dataAddr k := by simp [dataAddr]

/-! ### storeRegs -/

@[simp] theorem storeRegs_v (n : Nat) : (s.storeRegs n).v = s.v := by
  induction n with
  | zero => rfl
  | succ n ih => simpa [storeRegs] using ih
@[simp] theorem storeRegs_i (n : Nat) : (s.storeRegs n).i = s.i := by
  induction n with
  | zero => rfl
  | succ n ih => simpa [storeRegs] using ih
@[simp] theorem storeRegs_pc (n : Nat) : (s.storeRegs n).pc = s.pc := by
  induction n with
  | zero => rfl
  | succ n ih => simpa [storeRegs] using ih
@[simp] theorem storeRegs_sp (n : Nat) : (s.storeRegs n).sp = s.sp := by
  induction n with
  | zero => rfl
  | succ n ih => simpa [storeRegs] using ih
@[simp] theorem storeRegs_stack (n : Nat) : (s.storeRegs n).stack = s.stack := by
  induction n with
  | zero => rfl
  | succ n ih => simpa [storeRegs] using ih
@[simp] theorem storeRegs_dt (n : Nat) : (s.storeRegs n).dt = s.dt := by
  induction n with
  | zero => rfl
  | succ n ih => simpa [storeRegs] using ih
@[simp] theorem storeRegs_st (n : Nat) : (s.storeRegs n).st = s.st := by
  induction n with
  | zero => rfl
  | succ n ih => simpa [storeRegs] using ih
@[simp] theorem storeRegs_paused (n : Nat) : (s.storeRegs n).paused = s.paused := by
  induction n with
  | zero => rfl
  | succ n ih => simpa [storeRegs] using ih
@[simp] theorem storeRegs_waitKey (n : Nat) : (s.storeRegs n).waitKey = s.waitKey := by
  induction n with
  | zero => rfl
  | succ n ih => simpa [storeRegs] using ih
@[simp] theorem storeRegs_stop (n : Nat) : (s.storeRegs n).stop = s.stop := by
  induction n with
  | zero => rfl
  | succ n ih => simpa [storeRegs] using ih
@[simp] theorem storeRegs_fb (n : Nat) : (s.storeRegs n).fb = s.fb := by
  induction n with
  | zero => rfl
  | succ n ih => simpa [storeRegs] using ih
@[simp] theorem storeRegs_display (n : Nat) : (s.storeRegs n).display = s.display := by
  induction n with
  | zero => rfl
  | succ n ih => simpa [storeRegs] using ih
@[simp] theorem storeRegs_pauseToggle (n : Nat) : (s.storeRegs n).pauseToggle = s.pauseToggle := by
  induction n with
  | zero => rfl
  | succ n ih => simpa [storeRegs] using ih
@[simp] theorem storeRegs_keyEvent (n : Nat) : (s.storeRegs n).keyEvent = s.keyEvent := by
  induction n with
  | zero => rfl
  | succ n ih => simpa [storeRegs] using ih
@[simp] theorem storeRegs_randIn (n : Nat) : (s.storeRegs n).randIn = s.randIn := by
  induction n with
  | zero => rfl
  | succ n ih => simpa [storeRegs] using ih
@[simp] theorem storeRegs_keyDownIn (n : Nat) : (s.storeRegs n).keyDownIn = s.keyDownIn := by
  induction n with
  | zero => rfl
  | succ n ih => simpa [storeRegs] using ih
@[simp] theorem storeRegs_keyUpIn (n : Nat) : (s.storeRegs n).keyUpIn = s.keyUpIn := by
  induction n with
  | zero => rfl
  | succ n ih => simpa [storeRegs] using ih
@[simp] theorem storeRegs_agenda (n : Nat) : (s.storeRegs n).agenda = s.agenda := by
  induction n with
  | zero => rfl
  | succ n ih => simpa [storeRegs] using ih
@[simp] theorem storeRegs_draws (n : Nat) : (s.storeRegs n).draws = s.draws := by
  induction n with
  | zero => rfl
  | succ n ih => simpa [storeRegs] using ih
@[simp] theorem getV_storeRegs (n : Nat) (q : Reg) : (s.storeRegs n).getV q = s.getV q := by simp [getV]
@[simp] theorem dataAddr_storeRegs (n : Nat) (k : Nat) : (s.storeRegs n).dataAddr k = s.dataAddr k := by simp [dataAddr]

/-! ### loadRegs -/

@[simp] theorem loadRegs_i (n : Nat) : (s.loadRegs n).i = s.i := by
  induction n with
  | zero => rfl
  | succ n ih => simpa [loadRegs] using ih
@[simp] theorem loadRegs_pc (n : Nat) : (s.loadRegs n).pc = s.pc := by
  induction n with
  | zero => rfl
  | succ n ih => simpa [loadRegs] using ih
@[simp] theorem loadRegs_sp (n : Nat) : (s.loadRegs n).sp = s.sp := by
  induction n with
  | zero => rfl
  | succ n ih => simpa [loadRegs] using ih
@[simp] theorem loadRegs_stack (n : Nat) : (s.loadRegs n).stack = s.stack := by
  induction n with
  | zero => rfl
  | succ n ih => simpa [loadRegs] using ih
@[simp] theorem loadRegs_dt (n : Nat) : (s.loadRegs n).dt = s.dt := by
  induction n with
  | zero => rfl
  | succ n ih => simpa [loadRegs] using ih
@[simp] theorem loadRegs_st (n : Nat) : (s.loadRegs n).st = s.st := by
  induction n with
  | zero => rfl
  | succ n ih => simpa [loadRegs] using ih
@[simp] theorem loadRegs_mem (n : Nat) : (s.loadRegs n).mem = s.mem := by
  induction n with
  | zero => rfl
  | succ n ih => simpa [loadRegs] using ih
@[simp] theorem loadRegs_paused (n : Nat) : (s.loadRegs n).paused = s.paused := by
  induction n with
  | zero => rfl
  | succ n ih => simpa [loadRegs] using ih
@[simp] theorem loadRegs_waitKey (n : Nat) : (s.loadRegs n).waitKey = s.waitKey := by
  induction n with
  | zero => rfl
  | succ n ih => simpa [loadRegs] using ih
@[simp] theorem loadRegs_stop (n : Nat) : (s.loadRegs n).stop = s.stop := by
  induction n with
  | zero => rfl
  | succ n ih => simpa [loadRegs] using ih
@[simp] theorem loadRegs_fb (n : Nat) : (s.loadRegs n).fb = s.fb := by
  induction n with
  | zero => rfl
  | succ n ih => simpa [loadRegs] using ih
@[simp] theorem loadRegs_display (n : Nat) : (s.loadRegs n).display = s.display := by
  induction n with
  | zero => rfl
  | succ n ih => simpa [loadRegs] using ih
@[simp] theorem loadRegs_pauseToggle (n : Nat) : (s.loadRegs n).pauseToggle = s.pauseToggle := by
  induction n with
  | zero => rfl
  | succ n ih => simpa [loadRegs] using ih
@[simp] theorem loadRegs_keyEvent (n : Nat) : (s.loadRegs n).keyEvent = s.keyEvent := by
  induction n with
  | zero => rfl
  | succ n ih => simpa [loadRegs] using ih
@[simp] theorem loadRegs_randIn (n : Nat) : (s.loadRegs n).randIn = s.randIn := by
  induction n with
  | zero => rfl
  | succ n ih => simpa [loadRegs] using ih
@[simp] theorem loadRegs_keyDownIn (n : Nat) : (s.loadRegs n).keyDownIn = s.keyDownIn := by
  induction n with
  | zero => rfl
  | succ n ih => simpa [loadRegs] using ih
@[simp] theorem loadRegs_keyUpIn (n : Nat) : (s.loadRegs n).keyUpIn = s.keyUpIn := by
  induction n with
  | zero => rfl
  | succ n ih => simpa [loadRegs] using ih
@[simp] theorem loadRegs_agenda (n : Nat) : (s.loadRegs n).agenda = s.agenda := by
  induction n with
  | zero => rfl
  | succ n ih => simpa [loadRegs] using ih
@[simp] theorem loadRegs_draws (n : Nat) : (s.loadRegs n).draws = s.draws := by
  induction n with
  | zero => rfl
  | succ n ih => simpa [loadRegs] using ih
@[simp] theorem byteAt_loadRegs (n : Nat) (q : Word) : (s.loadRegs n).byteAt q = s.byteAt q := by simp [byteAt]
@[simp] theorem dataAddr_loadRegs (n : Nat) (k : Nat) : (s.loadRegs n).dataAddr k = s.dataAddr k := by simp [dataAddr]

/-! ### PC updates are setPc, flag writes are setV -/

@[simp] theorem advance_eq : s.advance = s.setPc (s.pc + 2) := rfl

@[simp] theorem jump_eq (w : Word) : s.jump w = s.setPc w := rfl

@[simp] theorem skip_eq (c : Bool) : s.skip c = s.setPc (if c then s.pc + 4 else s.pc + 2) := rfl

@[simp] theorem setFlag_eq (f : Bool) : s.setFlag f = s.setV VF (flagByte f) := rfl

@[simp] theorem setVFlag_eq (x : Reg) (b : Byte) (f : Bool) :
    s.setVFlag x b f = (s.setV x b).setV VF (flagByte f) := rfl

@[simp] theorem noteFetch_eq : s.noteFetch = (s.noteAccess s.pc).noteAccess (s.pc + 1) := rfl

end Sys2Proof.Machine.State
end

