-- ==== Sys2Proof/Laws/Ops.lean ====
section
/-! SUPPORT. What each shared operation does, said once: registers, byte accesses, the log, the stack, the timers,
runs of registers to and from memory. -/

namespace Sys2Proof.Machine.State

variable (s : State)

/-! ### Registers -/

theorem getV_setV (x q : Reg) (b : Byte) : (s.setV x b).getV q = if q = x then b else s.getV q := by
  unfold getV setV
  by_cases h : q = x
  · subst h
    rw [if_pos rfl]
    show (s.v.set q.toNat b q.isLt)[q.toNat]'q.isLt = b
    exact Vector.getElem_set_self _
  · have hne : x.toNat ≠ q.toNat := fun e => h (BitVec.eq_of_toNat_eq e.symm)
    rw [if_neg h]
    show (s.v.set x.toNat b x.isLt)[q.toNat]'q.isLt = s.v[q.toNat]'q.isLt
    exact Vector.getElem_set_ne _ _ hne

@[simp] theorem getV_setV_same (x : Reg) (b : Byte) : (s.setV x b).getV x = b := by simp [getV_setV]

theorem getV_setV_ne {x q : Reg} (b : Byte) (h : q ≠ x) : (s.setV x b).getV q = s.getV q := by
  simp [getV_setV, h]

/-- Two register files that read alike are equal. -/
theorem v_ext {s t : State} (h : ∀ q, s.getV q = t.getV q) : s.v = t.v := by
  apply Vector.ext
  intro k hk
  have := h (BitVec.ofNat 4 k)
  simp only [getV] at this
  have e : (BitVec.ofNat 4 k).toFin = (⟨k, hk⟩ : Fin 16) := by
    apply Fin.ext
    simp
    omega
  rw [e] at this
  exact this

/-! ### Byte accesses -/

theorem byteAt_pokeByte (a q : Word) (b : Byte) :
    (s.pokeByte a b).byteAt q = if q.toNat % 4096 = a.toNat % 4096 then b else s.byteAt q := by
  simp only [byteAt, pokeByte_mem, Memory.read_write]

/-- `MemWrite` then `MemRead`: the byte written at every address with the same low 12 bits, the old byte at every
other (R66, R67). -/
theorem byteAt_memWrite (a q : Word) (b : Byte) :
    (s.memWrite a b).byteAt q = if q.toNat % 4096 = a.toNat % 4096 then b else s.byteAt q := by
  rw [memWrite_eq, byteAt_pokeByte, byteAt_noteAccess]

theorem wf_pokeByte (a : Word) (b : Byte) (h : s.mem.wf = true) : (s.pokeByte a b).mem.wf = true :=
  Memory.wf_write _ _ _ h (Nat.mod_lt _ (by decide))

/-! ### The log -/

theorem logs_refl : s.Logs s [] := ⟨by simp, by simp⟩

theorem Logs.trans {s t u : State} {r₁ r₂ : List LogRecord} (h₁ : s.Logs t r₁) (h₂ : t.Logs u r₂) :
    s.Logs u (r₁ ++ r₂) := by
  refine ⟨by rw [h₂.1, h₁.1, List.append_assoc], fun c => ?_⟩
  rw [h₂.2, h₁.2, List.any_append, Bool.or_assoc]

/-- An update that keeps ANOM and LOG keeps what has been logged. -/
theorem Logs.congr {s t u : State} {r : List LogRecord} (h : s.Logs t r) (ha : u.anom = t.anom)
    (hl : u.log = t.log) : s.Logs u r := by
  refine ⟨by rw [hl, h.1], fun c => ?_⟩
  rw [← h.2 c]
  simp only [anomBit, ha]

theorem logs_logAnomaly (c : Anomaly) (w : Word) : s.Logs (s.logAnomaly c w) [⟨c, w⟩] := by
  refine ⟨rfl, fun d => ?_⟩
  simp only [anomBit, logAnomaly_anom, BitVec.getLsbD_or, List.any_cons, List.any_nil, Bool.or_false]
  congr 1
  cases c <;> cases d <;> rfl

theorem accessRecords_succ (base : Word) (n : Nat) :
    accessRecords base (n + 1) =
      accessRecords base n ++
        if 0x1000 ≤ (base + BitVec.ofNat 16 n).toNat then [⟨.memRange, base + BitVec.ofNat 16 n⟩] else [] := by
  simp only [accessRecords, List.range_succ, List.map_append, List.map_cons, List.map_nil,
    List.filter_append, List.filter_cons, List.filter_nil, decide_eq_true_eq]
  split <;> simp

theorem accessRecords_one (a : Word) :
    accessRecords a 1 = if 0x1000 ≤ a.toNat then [⟨.memRange, a⟩] else [] := by
  rw [accessRecords_succ]
  simp [accessRecords]

theorem logs_noteAccess (a : Word) : s.Logs (s.noteAccess a) (accessRecords a 1) := by
  rw [accessRecords_one]
  unfold noteAccess
  split
  · exact logs_logAnomaly _ _ _
  · exact logs_refl _

theorem logs_noteOperand (b : Byte) : s.Logs (s.noteOperand b) (operandRecords b) := by
  unfold noteOperand operandRecords
  split
  · exact logs_logAnomaly _ _ _
  · exact logs_refl _

/-- One more access extends a run's records. -/
theorem Logs.snoc {s t : State} {base : Word} {n : Nat} (h : s.Logs t (accessRecords base n)) :
    s.Logs (t.noteAccess (base + BitVec.ofNat 16 n)) (accessRecords base (n + 1)) := by
  have h1 := h.trans (logs_noteAccess t (base + BitVec.ofNat 16 n))
  rwa [accessRecords_one, ← accessRecords_succ] at h1

theorem logs_noteFetch : s.Logs s.noteFetch (accessRecords s.pc 2) :=
  Logs.snoc (n := 1) (logs_noteAccess s s.pc)

/-! ### Whole-state forms: an operation that only logs changes ANOM and LOG and nothing else -/

theorem noteAccess_frame (a : Word) :
    s.noteAccess a = { s with anom := (s.noteAccess a).anom, log := (s.noteAccess a).log } := by
  apply State.ext <;> simp

theorem noteOperand_frame (b : Byte) :
    s.noteOperand b = { s with anom := (s.noteOperand b).anom, log := (s.noteOperand b).log } := by
  apply State.ext <;> simp

theorem noteFetch_frame :
    s.noteFetch = { s with anom := s.noteFetch.anom, log := s.noteFetch.log } := by
  apply State.ext <;> simp

theorem noteRun_frame (base : Word) (n : Nat) :
    s.noteRun base n = { s with anom := (s.noteRun base n).anom, log := (s.noteRun base n).log } := by
  apply State.ext <;> simp

theorem logs_noteRun (base : Word) (n : Nat) : s.Logs (s.noteRun base n) (accessRecords base n) := by
  induction n with
  | zero => exact logs_refl s
  | succ n ih => exact ih.snoc

/-- An access in range leaves no record. -/
theorem noteAccess_of_lt {a : Word} (h : a.toNat < 0x1000) : s.noteAccess a = s := by
  unfold noteAccess
  rw [if_neg (by omega)]

/-! ### Runs of registers -/

theorem storeRegs_frame (n : Nat) :
    s.storeRegs n =
      { s with mem := (s.storeRegs n).mem, anom := (s.storeRegs n).anom, log := (s.storeRegs n).log } := by
  apply State.ext <;> simp

theorem logs_storeRegs (n : Nat) : s.Logs (s.storeRegs n) (accessRecords s.i n) := by
  induction n with
  | zero => exact logs_refl s
  | succ n ih => exact (Logs.snoc ih).congr rfl rfl

theorem wf_storeRegs (n : Nat) (h : s.mem.wf = true) : (s.storeRegs n).mem.wf = true := by
  induction n with
  | zero => exact h
  | succ n ih =>
    exact wf_pokeByte _ _ _ (by rw [noteAccess_mem]; exact ih)

/-- Addresses of one run of at most 4096 bytes stay distinct modulo 4096 (R64). -/
theorem dataAddr_mod (k : Nat) : (s.dataAddr k).toNat % 4096 = (s.i.toNat + k) % 4096 := by
  simp only [dataAddr, BitVec.toNat_add, BitVec.toNat_ofNat]
  omega

theorem byteAt_storeRegs_out (n : Nat) (q : Word)
    (h : ∀ k < n, q.toNat % 4096 ≠ (s.dataAddr k).toNat % 4096) : (s.storeRegs n).byteAt q = s.byteAt q := by
  induction n with
  | zero => rfl
  | succ n ih =>
    show ((s.storeRegs n).memWrite _ _).byteAt q = _
    rw [byteAt_memWrite, if_neg (h n (Nat.lt_succ_self n)), ih fun k hk => h k (by omega)]

theorem byteAt_storeRegs (n k : Nat) (hn : n ≤ 16) (hk : k < n) :
    (s.storeRegs n).byteAt (s.dataAddr k) = s.getV (BitVec.ofNat 4 k) := by
  induction n with
  | zero => omega
  | succ n ih =>
    show ((s.storeRegs n).memWrite _ _).byteAt _ = _
    rw [byteAt_memWrite, dataAddr_mod, dataAddr_mod]
    by_cases e : k = n
    · simp [e]
    · rw [if_neg (by omega), ih (by omega) (by omega)]

theorem loadRegs_frame (n : Nat) :
    s.loadRegs n =
      { s with v := (s.loadRegs n).v, anom := (s.loadRegs n).anom, log := (s.loadRegs n).log } := by
  apply State.ext <;> simp

theorem logs_loadRegs (n : Nat) : s.Logs (s.loadRegs n) (accessRecords s.i n) := by
  induction n with
  | zero => exact logs_refl s
  | succ n ih => exact (Logs.snoc ih).congr rfl rfl

theorem getV_loadRegs (n : Nat) (hn : n ≤ 16) (q : Reg) :
    (s.loadRegs n).getV q = if q.toNat < n then s.byteAt (s.dataAddr q.toNat) else s.getV q := by
  induction n with
  | zero => rfl
  | succ n ih =>
    show (((s.loadRegs n).noteAccess _).setV _ _).getV q = _
    rw [getV_setV, getV_noteAccess, ih (by omega)]
    by_cases e : q.toNat = n
    · have eq : q = BitVec.ofNat 4 n := by
        apply BitVec.eq_of_toNat_eq
        simp
        omega
      rw [if_pos eq, if_pos (by omega), e]
    · have ne : q ≠ BitVec.ofNat 4 n := by
        intro h
        apply e
        rw [h]
        simp
        omega
      rw [if_neg ne]
      by_cases hlt : q.toNat < n
      · rw [if_pos hlt, if_pos (by omega)]
      · rw [if_neg hlt, if_neg (by omega)]

/-! ### Stack and timers -/

/-- CALL's operation has two cases: a push, or the logged no-op with a full stack (R144). -/
theorem callTo_cases (target : Word) :
    (∃ h : s.sp.val < 16, s.callTo target =
      { s with
        stack := s.stack.set s.sp.val (s.pc + 2) h
        sp := ⟨s.sp.val + 1, Nat.succ_lt_succ h⟩
        pc := target }) ∨
    (s.sp.val = 16 ∧ s.callTo target = (s.logAnomaly .stackOverflow s.pc).setPc (s.pc + 2)) := by
  unfold callTo
  split
  · exact .inl ⟨‹_›, rfl⟩
  · exact .inr ⟨by omega, rfl⟩

/-- RET's operation has two cases: a pop, or the logged no-op with an empty stack (R142). -/
theorem returnFrom_cases :
    (∃ h : 0 < s.sp.val, s.returnFrom =
      { s with
        sp := ⟨s.sp.val - 1, Nat.lt_of_le_of_lt (Nat.sub_le _ _) s.sp.isLt⟩
        pc := s.stack.get ⟨s.sp.val - 1, Nat.sub_one_lt_of_le h (Nat.le_of_lt_succ s.sp.isLt)⟩ }) ∨
    (s.sp.val = 0 ∧ s.returnFrom = (s.logAnomaly .stackUnderflow s.pc).setPc (s.pc + 2)) := by
  unfold returnFrom
  split
  · exact .inl ⟨‹_›, rfl⟩
  · exact .inr ⟨by omega, rfl⟩

end Sys2Proof.Machine.State

namespace Sys2Proof.Machine

/-- One decrement saturates at zero (R241). -/
theorem toNat_decTimer (b : Byte) : (decTimer b).toNat = b.toNat - 1 := by
  unfold decTimer
  split
  · rename_i h
    simp [h]
  · rename_i h
    have : b.toNat ≠ 0 := fun e => h (BitVec.eq_of_toNat_eq (by simpa using e))
    have := b.isLt
    rw [BitVec.toNat_sub]
    simp
    omega

end Sys2Proof.Machine
end

