-- ==== Sys2Proof/Laws/Display.lean ====
section
/-! SUPPORT. The framebuffer: what a flip does to each pixel, and what a whole sprite does (R202). -/

namespace Sys2Proof.Machine

theorem Frame.pixel_flip (f : Frame) (r r' : Fin 32) (c c' : Fin 64) :
    (f.flip r c).pixel r' c' = if r' = r ∧ c' = c then !f.pixel r c else f.pixel r' c' := by
  unfold Frame.pixel Frame.flip
  by_cases hr : r' = r
  · subst hr
    have e : (f.set r'.val (f.get r' ^^^ BitVec.twoPow 64 (63 - c.val)) r'.isLt).get r' =
        f.get r' ^^^ BitVec.twoPow 64 (63 - c.val) := Vector.getElem_set_self _
    rw [e, BitVec.getLsbD_xor, BitVec.getLsbD_twoPow]
    by_cases hc : c' = c
    · subst hc
      have : 63 - c'.val < 64 := by omega
      simp [this]
    · have : 63 - c.val ≠ 63 - c'.val := fun h => hc (Fin.ext (by omega))
      simp [this, hc]
  · have hne : r.val ≠ r'.val := fun h => hr (Fin.ext h.symm)
    have e : (f.set r.val (f.get r ^^^ BitVec.twoPow 64 (63 - c.val)) r.isLt).get r' = f.get r' :=
      Vector.getElem_set_ne _ _ hne
    rw [e, if_neg (fun h => hr h.1)]

theorem Frame.pixel_blank (r : Fin 32) (c : Fin 64) : Frame.blank.pixel r c = false := by
  have e : Frame.blank.get r = 0 := Vector.getElem_replicate _
  simp [Frame.pixel, e]

/-- Two framebuffers with the same pixels are equal. -/
theorem Frame.ext_pixel {f g : Frame} (h : ∀ r c, f.pixel r c = g.pixel r c) : f = g := by
  apply Vector.ext
  intro k hk
  apply BitVec.eq_of_getLsbD_eq
  intro j hj
  have := h ⟨k, hk⟩ ⟨63 - j, by omega⟩
  simp only [Frame.pixel, show 63 - (63 - j) = j by omega] at this
  exact this

/-- The first n columns of a sprite row put a 1 bit on column c. -/
def rowCovers (x0 : Nat) (b : Byte) (n : Nat) (c : Fin 64) : Prop :=
  ∃ j < n, (x0 + j) % 64 = c.val ∧ b.getLsbD (7 - j) = true

theorem rowCovers_succ (x0 : Nat) (b : Byte) (n : Nat) (c : Fin 64) :
    rowCovers x0 b (n + 1) c ↔
      rowCovers x0 b n c ∨ ((x0 + n) % 64 = c.val ∧ b.getLsbD (7 - n) = true) := by
  constructor
  · rintro ⟨j, hj, h⟩
    by_cases e : j = n
    · exact .inr (e ▸ h)
    · exact .inl ⟨j, by omega, h⟩
  · rintro (⟨j, hj, h⟩ | h)
    · exact ⟨j, by omega, h⟩
    · exact ⟨n, by omega, h⟩

/-- What one sprite row does: it flips exactly the covered pixels of its row, and hits when one of them was on. -/
theorem Drawing.cols_spec (d : Drawing) (r : Fin 32) (x0 : Nat) (b : Byte) (n : Nat) (hn : n ≤ 64) :
    (∀ r' c, r' = r ∧ rowCovers x0 b n c → (d.cols r x0 b n).fb.pixel r' c = !d.fb.pixel r' c) ∧
    (∀ r' c, ¬(r' = r ∧ rowCovers x0 b n c) → (d.cols r x0 b n).fb.pixel r' c = d.fb.pixel r' c) ∧
    ((d.cols r x0 b n).hit = true ↔
      d.hit = true ∨ ∃ c, rowCovers x0 b n c ∧ d.fb.pixel r c = true) := by
  induction n with
  | zero =>
    have h0 : ∀ c, ¬ rowCovers x0 b 0 c := fun c ⟨j, hj, _⟩ => by omega
    refine ⟨fun r' c h => absurd h.2 (h0 c), fun _ _ _ => rfl, ?_⟩
    simp [cols, h0]
  | succ n ih =>
    obtain ⟨ih1, ih2, ih3⟩ := ih (by omega)
    by_cases hb : b.getLsbD (7 - n) = true
    · have e : d.cols r x0 b (n + 1) = (d.cols r x0 b n).draw r (Fin.ofNat 64 (x0 + n)) := by
        simp [cols, hb]
      have hfresh : ¬ rowCovers x0 b n (Fin.ofNat 64 (x0 + n)) := by
        rintro ⟨j, hj, h, _⟩
        simp only [Fin.ofNat] at h
        omega
      have hsucc : ∀ c : Fin 64, rowCovers x0 b (n + 1) c ↔
          rowCovers x0 b n c ∨ c = Fin.ofNat 64 (x0 + n) := fun c => by
        rw [rowCovers_succ]
        simp only [hb, and_true, Fin.ext_iff, Fin.ofNat]
        exact or_congr Iff.rfl eq_comm
      have hold : (d.cols r x0 b n).fb.pixel r (Fin.ofNat 64 (x0 + n)) =
          d.fb.pixel r (Fin.ofNat 64 (x0 + n)) := ih2 _ _ fun h => hfresh h.2
      rw [e]
      simp only [draw, Frame.pixel_flip, hold, hsucc]
      refine ⟨?_, ?_, ?_⟩
      · rintro r' c ⟨rfl, h⟩
        by_cases hc : c = Fin.ofNat 64 (x0 + n)
        · simp [hc]
        · simp only [hc, and_false, ↓reduceIte]
          exact ih1 _ _ ⟨rfl, h.resolve_right hc⟩
      · intro r' c h
        have hne : ¬(r' = r ∧ c = Fin.ofNat 64 (x0 + n)) := fun h' => h ⟨h'.1, .inr h'.2⟩
        rw [if_neg hne]
        exact ih2 _ _ fun h' => h ⟨h'.1, .inl h'.2⟩
      · rw [Bool.or_eq_true, ih3]
        constructor
        · rintro ((h | ⟨c, h, hc⟩) | h)
          · exact .inl h
          · exact .inr ⟨c, .inl h, hc⟩
          · exact .inr ⟨_, .inr rfl, h⟩
        · rintro (h | ⟨c, h | rfl, hc⟩)
          · exact .inl (.inl h)
          · exact .inl (.inr ⟨c, h, hc⟩)
          · exact .inr hc
    · have e : d.cols r x0 b (n + 1) = d.cols r x0 b n := by simp [cols, hb]
      have hsucc : ∀ c : Fin 64, rowCovers x0 b (n + 1) c ↔ rowCovers x0 b n c := fun c => by
        rw [rowCovers_succ]
        simp [hb]
      rw [e]
      simp only [hsucc]
      exact ⟨ih1, ih2, ih3⟩

theorem State.spriteCovers_succ (s : State) (width x0 y0 n : Nat) (r : Fin 32) (c : Fin 64) :
    s.SpriteCovers width x0 y0 (n + 1) r c ↔
      s.SpriteCovers width x0 y0 n r c ∨
        (r = Fin.ofNat 32 (y0 + n) ∧ rowCovers x0 (s.byteAt (s.dataAddr n)) width c) := by
  simp only [State.SpriteCovers, rowCovers, Fin.ext_iff, Fin.ofNat]
  constructor
  · rintro ⟨k, hk, j, hj, h1, h2, h3⟩
    by_cases e : k = n
    · subst e
      exact .inr ⟨h1.symm, j, hj, h2, h3⟩
    · exact .inl ⟨k, by omega, j, hj, h1, h2, h3⟩
  · rintro (⟨k, hk, h⟩ | ⟨h1, j, hj, h2, h3⟩)
    · exact ⟨k, by omega, h⟩
    · exact ⟨n, by omega, j, hj, h1.symm, h2, h3⟩

/-- What a sprite does, for every width up to 64 and height up to 32: it flips exactly the covered pixels, and
hits when and only when a covered pixel was on (R202, R203). -/
theorem State.drawRows_spec (s : State) (width x0 y0 n : Nat) (hw : width ≤ 64) (hn : n ≤ 32) :
    (∀ r c, s.SpriteCovers width x0 y0 n r c →
      (s.drawRows width x0 y0 n).fb.pixel r c = !s.fb.pixel r c) ∧
    (∀ r c, ¬ s.SpriteCovers width x0 y0 n r c →
      (s.drawRows width x0 y0 n).fb.pixel r c = s.fb.pixel r c) ∧
    ((s.drawRows width x0 y0 n).hit = true ↔
      ∃ r c, s.SpriteCovers width x0 y0 n r c ∧ s.fb.pixel r c = true) := by
  induction n with
  | zero =>
    have h0 : ∀ r c, ¬ s.SpriteCovers width x0 y0 0 r c := fun r c ⟨k, hk, _⟩ => by omega
    refine ⟨fun r c h => absurd h (h0 r c), fun _ _ _ => rfl, ?_⟩
    simp [State.drawRows, h0]
  | succ n ih =>
    obtain ⟨ih1, ih2, ih3⟩ := ih (by omega)
    obtain ⟨c1, c2, c3⟩ := Drawing.cols_spec (s.drawRows width x0 y0 n) (Fin.ofNat 32 (y0 + n)) x0
      (s.byteAt (s.dataAddr n)) width hw
    have hfresh : ∀ c, ¬ s.SpriteCovers width x0 y0 n (Fin.ofNat 32 (y0 + n)) c := by
      rintro c ⟨k, hk, j, hj, h, _⟩
      simp only [Fin.ofNat] at h
      omega
    simp only [State.spriteCovers_succ]
    refine ⟨?_, ?_, ?_⟩
    · rintro r c (h | ⟨rfl, h⟩)
      · have hr : r ≠ Fin.ofNat 32 (y0 + n) := fun e => hfresh c (e ▸ h)
        exact (c2 r c fun h' => hr h'.1).trans (ih1 r c h)
      · exact (c1 _ c ⟨rfl, h⟩).trans (congrArg _ (ih2 _ c (hfresh c)))
    · intro r c h
      exact (c2 r c fun h' => h (.inr h')).trans (ih2 r c fun h' => h (.inl h'))
    · refine c3.trans ?_
      rw [ih3]
      constructor
      · rintro (⟨r, c, h, hp⟩ | ⟨c, h, hp⟩)
        · exact ⟨r, c, .inl h, hp⟩
        · exact ⟨_, c, .inr ⟨rfl, h⟩, (ih2 _ c (hfresh c)).symm.trans hp⟩
      · rintro ⟨r, c, h | ⟨rfl, h⟩, hp⟩
        · exact .inl ⟨r, c, h, hp⟩
        · exact .inr ⟨c, h, (ih2 _ c (hfresh c)).trans hp⟩

/-- DRW changes VF, FB, the display events, ANOM and LOG, and nothing else. -/
theorem State.drawSprite_frame (s : State) (width : Nat) (x y : Reg) (n : Nat) :
    State.drawSprite width x y n s =
      { s.setV VF (flagByte (s.drawRows width (s.getV x).toNat (s.getV y).toNat n).hit) with
        fb := (s.drawRows width (s.getV x).toNat (s.getV y).toNat n).fb
        display := s.display ++ [.render]
        anom := (s.noteRun s.i n).anom
        log := (s.noteRun s.i n).log } := by
  apply State.ext <;> simp [State.drawSprite]

end Sys2Proof.Machine
end

