-- ==== Sys2Proof/Laws/Encoding.lean ====
section
/-! SUPPORT. Encoding: the fields of a word put together from its parts, and each row's test read as a test on
fields. -/

namespace Sys2Proof

/-! ### Fields of the formats (R91) -/

theorem fieldGroup_addr (g : BitVec 4) (a : Addr) : fieldGroup (g ++ a) = g := by
  apply BitVec.eq_of_getLsbD_eq
  intro i hi
  simp only [fieldGroup, BitVec.getLsbD_extractLsb', BitVec.getLsbD_append]
  interval_cases i <;> simp

theorem fieldAddr_addr (g : BitVec 4) (a : Addr) : fieldAddr (g ++ a) = a := by
  apply BitVec.eq_of_getLsbD_eq
  intro i hi
  simp only [fieldAddr, BitVec.getLsbD_extractLsb', BitVec.getLsbD_append]
  interval_cases i <;> simp

theorem fieldGroup_byte (g x : BitVec 4) (k : Byte) : fieldGroup (g ++ x ++ k) = g := by
  apply BitVec.eq_of_getLsbD_eq
  intro i hi
  simp only [fieldGroup, BitVec.getLsbD_extractLsb', BitVec.getLsbD_append]
  interval_cases i <;> simp

theorem fieldX_byte (g x : BitVec 4) (k : Byte) : fieldX (g ++ x ++ k) = x := by
  apply BitVec.eq_of_getLsbD_eq
  intro i hi
  simp only [fieldX, BitVec.getLsbD_extractLsb', BitVec.getLsbD_append]
  interval_cases i <;> simp

theorem fieldByte_byte (g x : BitVec 4) (k : Byte) : fieldByte (g ++ x ++ k) = k := by
  apply BitVec.eq_of_getLsbD_eq
  intro i hi
  simp only [fieldByte, BitVec.getLsbD_extractLsb', BitVec.getLsbD_append]
  interval_cases i <;> simp

theorem fieldGroup_nibbles (g x y n : BitVec 4) : fieldGroup (g ++ x ++ y ++ n) = g := by
  apply BitVec.eq_of_getLsbD_eq
  intro i hi
  simp only [fieldGroup, BitVec.getLsbD_extractLsb', BitVec.getLsbD_append]
  interval_cases i <;> simp

theorem fieldX_nibbles (g x y n : BitVec 4) : fieldX (g ++ x ++ y ++ n) = x := by
  apply BitVec.eq_of_getLsbD_eq
  intro i hi
  simp only [fieldX, BitVec.getLsbD_extractLsb', BitVec.getLsbD_append]
  interval_cases i <;> simp

theorem fieldY_nibbles (g x y n : BitVec 4) : fieldY (g ++ x ++ y ++ n) = y := by
  apply BitVec.eq_of_getLsbD_eq
  intro i hi
  simp only [fieldY, BitVec.getLsbD_extractLsb', BitVec.getLsbD_append]
  interval_cases i <;> simp

theorem fieldNibble_nibbles (g x y n : BitVec 4) : fieldNibble (g ++ x ++ y ++ n) = n := by
  apply BitVec.eq_of_getLsbD_eq
  intro i hi
  simp only [fieldNibble, BitVec.getLsbD_extractLsb', BitVec.getLsbD_append]
  interval_cases i <;> simp

/-! ### A row's test as a test on fields (R94) -/

theorem and_mask_group (op m : Word) (hm : m &&& 0xF000 = m) :
    (op &&& 0xF000 == m) = (fieldGroup op == fieldGroup m) := by
  rw [Bool.eq_iff_iff, beq_iff_eq, beq_iff_eq]
  constructor
  · rintro rfl
    apply BitVec.eq_of_getLsbD_eq
    intro i hi
    simp only [fieldGroup, BitVec.getLsbD_extractLsb', BitVec.getLsbD_and]
    interval_cases i <;> simp
  · intro h
    rw [← hm]
    apply BitVec.eq_of_getLsbD_eq
    intro i hi
    have hb := fun j => congrArg (BitVec.getLsbD · j) h
    have h0 := hb 0; have h1 := hb 1; have h2 := hb 2; have h3 := hb 3
    simp [fieldGroup] at h0 h1 h2 h3
    simp only [BitVec.getLsbD_and]
    interval_cases i <;> simp [*]

theorem and_mask_nibble (op m : Word) (hm : m &&& 0xF00F = m) :
    (op &&& 0xF00F == m) = (fieldGroup op == fieldGroup m && fieldNibble op == fieldNibble m) := by
  rw [Bool.eq_iff_iff, Bool.and_eq_true, beq_iff_eq, beq_iff_eq, beq_iff_eq]
  constructor
  · rintro rfl
    constructor
    · apply BitVec.eq_of_getLsbD_eq
      intro i hi
      simp only [fieldGroup, BitVec.getLsbD_extractLsb', BitVec.getLsbD_and]
      interval_cases i <;> simp
    · apply BitVec.eq_of_getLsbD_eq
      intro i hi
      simp only [fieldNibble, BitVec.getLsbD_extractLsb', BitVec.getLsbD_and]
      interval_cases i <;> simp
  · rintro ⟨h, h'⟩
    rw [← hm]
    apply BitVec.eq_of_getLsbD_eq
    intro i hi
    have hb := fun j => congrArg (BitVec.getLsbD · j) h
    have hc := fun j => congrArg (BitVec.getLsbD · j) h'
    have h0 := hb 0; have h1 := hb 1; have h2 := hb 2; have h3 := hb 3
    have g0 := hc 0; have g1 := hc 1; have g2 := hc 2; have g3 := hc 3
    simp [fieldGroup, fieldNibble] at h0 h1 h2 h3 g0 g1 g2 g3
    simp only [BitVec.getLsbD_and]
    interval_cases i <;> simp [*]

theorem and_mask_byte (op m : Word) (hm : m &&& 0xF0FF = m) :
    (op &&& 0xF0FF == m) = (fieldGroup op == fieldGroup m && fieldByte op == fieldByte m) := by
  rw [Bool.eq_iff_iff, Bool.and_eq_true, beq_iff_eq, beq_iff_eq, beq_iff_eq]
  constructor
  · rintro rfl
    constructor
    · apply BitVec.eq_of_getLsbD_eq
      intro i hi
      simp only [fieldGroup, BitVec.getLsbD_extractLsb', BitVec.getLsbD_and]
      interval_cases i <;> simp
    · apply BitVec.eq_of_getLsbD_eq
      intro i hi
      simp only [fieldByte, BitVec.getLsbD_extractLsb', BitVec.getLsbD_and]
      interval_cases i <;> simp
  · rintro ⟨h, h'⟩
    rw [← hm]
    apply BitVec.eq_of_getLsbD_eq
    intro i hi
    have hb := fun j => congrArg (BitVec.getLsbD · j) h
    have hc := fun j => congrArg (BitVec.getLsbD · j) h'
    have h0 := hb 0; have h1 := hb 1; have h2 := hb 2; have h3 := hb 3
    have g0 := hc 0; have g1 := hc 1; have g2 := hc 2; have g3 := hc 3
    have g4 := hc 4; have g5 := hc 5; have g6 := hc 6; have g7 := hc 7
    simp [fieldGroup, fieldByte] at h0 h1 h2 h3 g0 g1 g2 g3 g4 g5 g6 g7
    simp only [BitVec.getLsbD_and]
    interval_cases i <;> simp [*]

theorem and_mask_all (op m : Word) : (op &&& 0xFFFF == m) = (op == m) := by
  rw [show op &&& 0xFFFF = op from BitVec.and_allOnes]

end Sys2Proof
end

