-- ==== Sys2Proof/Laws/PerInstr.lean ====
section
/-! SUPPORT. Statements made per instruction. -/

namespace Sys2Proof.Laws.OpcodeBits

/-- The word of an instruction passes the test of a row of the opcode map, and that row reads the instruction back,
every operand included (R91, R92, R94). The fallback is its own word. -/
def Statement : Instr → Prop
  | .unknown op => encode (.unknown op) = op
  | i => ∃ r ∈ opcodeRows, r.accepts (encode i) = true ∧ r.build (encode i) = i

theorem cls : Statement .cls :=
  ⟨_, List.mem_of_getElem? (i := 0) rfl, by decide, rfl⟩

theorem ret : Statement .ret :=
  ⟨_, List.mem_of_getElem? (i := 1) rfl, by decide, rfl⟩

theorem sys (addr : Addr) : Statement (.sys addr) := by
  refine ⟨_, List.mem_of_getElem? (i := 2) rfl, ?_, ?_⟩
  · simp only [OpcodeRow.accepts, encode, and_mask_group _ 0x0000 (by decide), fieldGroup_addr]
    decide
  · simp only [encode, fieldAddr_addr]

theorem jp (addr : Addr) : Statement (.jp addr) := by
  refine ⟨_, List.mem_of_getElem? (i := 3) rfl, ?_, ?_⟩
  · simp only [OpcodeRow.accepts, encode, and_mask_group _ 0x1000 (by decide), fieldGroup_addr]
    decide
  · simp only [encode, fieldAddr_addr]

theorem call (addr : Addr) : Statement (.call addr) := by
  refine ⟨_, List.mem_of_getElem? (i := 4) rfl, ?_, ?_⟩
  · simp only [OpcodeRow.accepts, encode, and_mask_group _ 0x2000 (by decide), fieldGroup_addr]
    decide
  · simp only [encode, fieldAddr_addr]

theorem seByte (x : Reg) (byte : Byte) : Statement (.seByte x byte) := by
  refine ⟨_, List.mem_of_getElem? (i := 5) rfl, ?_, ?_⟩
  · simp only [OpcodeRow.accepts, encode, and_mask_group _ 0x3000 (by decide), fieldGroup_byte]
    decide
  · simp only [encode, fieldX_byte, fieldByte_byte]

theorem sneByte (x : Reg) (byte : Byte) : Statement (.sneByte x byte) := by
  refine ⟨_, List.mem_of_getElem? (i := 6) rfl, ?_, ?_⟩
  · simp only [OpcodeRow.accepts, encode, and_mask_group _ 0x4000 (by decide), fieldGroup_byte]
    decide
  · simp only [encode, fieldX_byte, fieldByte_byte]

theorem seReg (x y : Reg) : Statement (.seReg x y) := by
  refine ⟨_, List.mem_of_getElem? (i := 7) rfl, ?_, ?_⟩
  · simp only [OpcodeRow.accepts, encode, and_mask_nibble _ 0x5000 (by decide), fieldGroup_nibbles, fieldNibble_nibbles]
    decide
  · simp only [encode, fieldX_nibbles, fieldY_nibbles]

theorem ldByte (x : Reg) (byte : Byte) : Statement (.ldByte x byte) := by
  refine ⟨_, List.mem_of_getElem? (i := 8) rfl, ?_, ?_⟩
  · simp only [OpcodeRow.accepts, encode, and_mask_group _ 0x6000 (by decide), fieldGroup_byte]
    decide
  · simp only [encode, fieldX_byte, fieldByte_byte]

theorem addByte (x : Reg) (byte : Byte) : Statement (.addByte x byte) := by
  refine ⟨_, List.mem_of_getElem? (i := 9) rfl, ?_, ?_⟩
  · simp only [OpcodeRow.accepts, encode, and_mask_group _ 0x7000 (by decide), fieldGroup_byte]
    decide
  · simp only [encode, fieldX_byte, fieldByte_byte]

theorem ldReg (x y : Reg) : Statement (.ldReg x y) := by
  refine ⟨_, List.mem_of_getElem? (i := 10) rfl, ?_, ?_⟩
  · simp only [OpcodeRow.accepts, encode, and_mask_nibble _ 0x8000 (by decide), fieldGroup_nibbles, fieldNibble_nibbles]
    decide
  · simp only [encode, fieldX_nibbles, fieldY_nibbles]

theorem orReg (x y : Reg) : Statement (.orReg x y) := by
  refine ⟨_, List.mem_of_getElem? (i := 11) rfl, ?_, ?_⟩
  · simp only [OpcodeRow.accepts, encode, and_mask_nibble _ 0x8001 (by decide), fieldGroup_nibbles, fieldNibble_nibbles]
    decide
  · simp only [encode, fieldX_nibbles, fieldY_nibbles]

theorem andReg (x y : Reg) : Statement (.andReg x y) := by
  refine ⟨_, List.mem_of_getElem? (i := 12) rfl, ?_, ?_⟩
  · simp only [OpcodeRow.accepts, encode, and_mask_nibble _ 0x8002 (by decide), fieldGroup_nibbles, fieldNibble_nibbles]
    decide
  · simp only [encode, fieldX_nibbles, fieldY_nibbles]

theorem xorReg (x y : Reg) : Statement (.xorReg x y) := by
  refine ⟨_, List.mem_of_getElem? (i := 13) rfl, ?_, ?_⟩
  · simp only [OpcodeRow.accepts, encode, and_mask_nibble _ 0x8003 (by decide), fieldGroup_nibbles, fieldNibble_nibbles]
    decide
  · simp only [encode, fieldX_nibbles, fieldY_nibbles]

theorem addReg (x y : Reg) : Statement (.addReg x y) := by
  refine ⟨_, List.mem_of_getElem? (i := 14) rfl, ?_, ?_⟩
  · simp only [OpcodeRow.accepts, encode, and_mask_nibble _ 0x8004 (by decide), fieldGroup_nibbles, fieldNibble_nibbles]
    decide
  · simp only [encode, fieldX_nibbles, fieldY_nibbles]

theorem sub (x y : Reg) : Statement (.sub x y) := by
  refine ⟨_, List.mem_of_getElem? (i := 15) rfl, ?_, ?_⟩
  · simp only [OpcodeRow.accepts, encode, and_mask_nibble _ 0x8005 (by decide), fieldGroup_nibbles, fieldNibble_nibbles]
    decide
  · simp only [encode, fieldX_nibbles, fieldY_nibbles]

theorem shr (x y : Reg) : Statement (.shr x y) := by
  refine ⟨_, List.mem_of_getElem? (i := 16) rfl, ?_, ?_⟩
  · simp only [OpcodeRow.accepts, encode, and_mask_nibble _ 0x8006 (by decide), fieldGroup_nibbles, fieldNibble_nibbles]
    decide
  · simp only [encode, fieldX_nibbles, fieldY_nibbles]

theorem subn (x y : Reg) : Statement (.subn x y) := by
  refine ⟨_, List.mem_of_getElem? (i := 17) rfl, ?_, ?_⟩
  · simp only [OpcodeRow.accepts, encode, and_mask_nibble _ 0x8007 (by decide), fieldGroup_nibbles, fieldNibble_nibbles]
    decide
  · simp only [encode, fieldX_nibbles, fieldY_nibbles]

theorem shl (x y : Reg) : Statement (.shl x y) := by
  refine ⟨_, List.mem_of_getElem? (i := 18) rfl, ?_, ?_⟩
  · simp only [OpcodeRow.accepts, encode, and_mask_nibble _ 0x800E (by decide), fieldGroup_nibbles, fieldNibble_nibbles]
    decide
  · simp only [encode, fieldX_nibbles, fieldY_nibbles]

theorem sneReg (x y : Reg) : Statement (.sneReg x y) := by
  refine ⟨_, List.mem_of_getElem? (i := 19) rfl, ?_, ?_⟩
  · simp only [OpcodeRow.accepts, encode, and_mask_nibble _ 0x9000 (by decide), fieldGroup_nibbles, fieldNibble_nibbles]
    decide
  · simp only [encode, fieldX_nibbles, fieldY_nibbles]

theorem ldI (addr : Addr) : Statement (.ldI addr) := by
  refine ⟨_, List.mem_of_getElem? (i := 20) rfl, ?_, ?_⟩
  · simp only [OpcodeRow.accepts, encode, and_mask_group _ 0xA000 (by decide), fieldGroup_addr]
    decide
  · simp only [encode, fieldAddr_addr]

theorem jpV0 (addr : Addr) : Statement (.jpV0 addr) := by
  refine ⟨_, List.mem_of_getElem? (i := 21) rfl, ?_, ?_⟩
  · simp only [OpcodeRow.accepts, encode, and_mask_group _ 0xB000 (by decide), fieldGroup_addr]
    decide
  · simp only [encode, fieldAddr_addr]

theorem rnd (x : Reg) (byte : Byte) : Statement (.rnd x byte) := by
  refine ⟨_, List.mem_of_getElem? (i := 22) rfl, ?_, ?_⟩
  · simp only [OpcodeRow.accepts, encode, and_mask_group _ 0xC000 (by decide), fieldGroup_byte]
    decide
  · simp only [encode, fieldX_byte, fieldByte_byte]

theorem drw (x y : Reg) (nibble : BitVec 4) : Statement (.drw x y nibble) := by
  refine ⟨_, List.mem_of_getElem? (i := 23) rfl, ?_, ?_⟩
  · simp only [OpcodeRow.accepts, encode, and_mask_group _ 0xD000 (by decide), fieldGroup_nibbles]
    decide
  · simp only [encode, fieldX_nibbles, fieldY_nibbles, fieldNibble_nibbles]

theorem skp (x : Reg) : Statement (.skp x) := by
  refine ⟨_, List.mem_of_getElem? (i := 24) rfl, ?_, ?_⟩
  · simp only [OpcodeRow.accepts, encode, and_mask_byte _ 0xE09E (by decide), fieldGroup_byte, fieldByte_byte]
    decide
  · simp only [encode, fieldX_byte]

theorem sknp (x : Reg) : Statement (.sknp x) := by
  refine ⟨_, List.mem_of_getElem? (i := 25) rfl, ?_, ?_⟩
  · simp only [OpcodeRow.accepts, encode, and_mask_byte _ 0xE0A1 (by decide), fieldGroup_byte, fieldByte_byte]
    decide
  · simp only [encode, fieldX_byte]

theorem ldVxDT (x : Reg) : Statement (.ldVxDT x) := by
  refine ⟨_, List.mem_of_getElem? (i := 26) rfl, ?_, ?_⟩
  · simp only [OpcodeRow.accepts, encode, and_mask_byte _ 0xF007 (by decide), fieldGroup_byte, fieldByte_byte]
    decide
  · simp only [encode, fieldX_byte]

theorem ldVxK (x : Reg) : Statement (.ldVxK x) := by
  refine ⟨_, List.mem_of_getElem? (i := 27) rfl, ?_, ?_⟩
  · simp only [OpcodeRow.accepts, encode, and_mask_byte _ 0xF00A (by decide), fieldGroup_byte, fieldByte_byte]
    decide
  · simp only [encode, fieldX_byte]

theorem ldDTVx (x : Reg) : Statement (.ldDTVx x) := by
  refine ⟨_, List.mem_of_getElem? (i := 28) rfl, ?_, ?_⟩
  · simp only [OpcodeRow.accepts, encode, and_mask_byte _ 0xF015 (by decide), fieldGroup_byte, fieldByte_byte]
    decide
  · simp only [encode, fieldX_byte]

theorem ldSTVx (x : Reg) : Statement (.ldSTVx x) := by
  refine ⟨_, List.mem_of_getElem? (i := 29) rfl, ?_, ?_⟩
  · simp only [OpcodeRow.accepts, encode, and_mask_byte _ 0xF018 (by decide), fieldGroup_byte, fieldByte_byte]
    decide
  · simp only [encode, fieldX_byte]

theorem addIVx (x : Reg) : Statement (.addIVx x) := by
  refine ⟨_, List.mem_of_getElem? (i := 30) rfl, ?_, ?_⟩
  · simp only [OpcodeRow.accepts, encode, and_mask_byte _ 0xF01E (by decide), fieldGroup_byte, fieldByte_byte]
    decide
  · simp only [encode, fieldX_byte]

theorem ldFVx (x : Reg) : Statement (.ldFVx x) := by
  refine ⟨_, List.mem_of_getElem? (i := 31) rfl, ?_, ?_⟩
  · simp only [OpcodeRow.accepts, encode, and_mask_byte _ 0xF029 (by decide), fieldGroup_byte, fieldByte_byte]
    decide
  · simp only [encode, fieldX_byte]

theorem ldBVx (x : Reg) : Statement (.ldBVx x) := by
  refine ⟨_, List.mem_of_getElem? (i := 32) rfl, ?_, ?_⟩
  · simp only [OpcodeRow.accepts, encode, and_mask_byte _ 0xF033 (by decide), fieldGroup_byte, fieldByte_byte]
    decide
  · simp only [encode, fieldX_byte]

theorem ldMemVx (x : Reg) : Statement (.ldMemVx x) := by
  refine ⟨_, List.mem_of_getElem? (i := 33) rfl, ?_, ?_⟩
  · simp only [OpcodeRow.accepts, encode, and_mask_byte _ 0xF055 (by decide), fieldGroup_byte, fieldByte_byte]
    decide
  · simp only [encode, fieldX_byte]

theorem ldVxMem (x : Reg) : Statement (.ldVxMem x) := by
  refine ⟨_, List.mem_of_getElem? (i := 34) rfl, ?_, ?_⟩
  · simp only [OpcodeRow.accepts, encode, and_mask_byte _ 0xF065 (by decide), fieldGroup_byte, fieldByte_byte]
    decide
  · simp only [encode, fieldX_byte]

theorem unknown (op : Word) : Statement (.unknown op) := rfl

end Sys2Proof.Laws.OpcodeBits
end

