-- ==== Sys2Proof/Laws/Step.lean ====
section
/-! SUPPORT. What a step can do, said once; CORE's turn in its cases; and runs of several steps. -/

namespace Sys2Proof.Machine

/-- An access at either byte of a fetch below 0x0FFF is in range, so the fetch leaves nothing (R62). -/
theorem State.noteFetch_of_lt {s : State} (h : s.pc.toNat < 0x0FFF) : s.noteFetch = s := by
  have h1 : (s.pc + 1).toNat = (s.pc.toNat + 1) % 65536 := by simp
  rw [State.noteFetch_eq, State.noteAccess_of_lt s (by omega), State.noteAccess_of_lt s (by omega)]

theorem step_of_turn {s : State} (h : s.stop = false) : step s = s.dropTurn.take s.nextTurn := by
  simp [step, State.oneStep, h]

theorem step_core {s : State} (h : s.stop = false) (hn : s.nextTurn = .core) :
    step s = s.dropTurn.coreTurn := by
  rw [step_of_turn h, hn]
  rfl

theorem step_cycle {s : State} (h : s.stop = false) (hn : s.nextTurn = .core) (hw : s.waitKey = none) :
    step s = s.dropTurn.cycle := by
  rw [step_core h hn]
  simp [State.coreTurn, hw]

/-- A key event during a hold finishes LD Vx, K (R128, R164). -/
theorem State.deliverKey_of_hold {s : State} {x : Reg} {k : Key} (h : s.waitKey = some x) :
    s.deliverKey k = .next ((s.offerKey k).release.setV x (keyByte k)).advance := by
  rw [State.deliverKey, h]
  rfl

/-- A key event outside a hold is ignored (R231). -/
theorem State.deliverKey_of_no_hold {s : State} {k : Key} (h : s.waitKey = none) : s.deliverKey k = .next s := by
  rw [State.deliverKey, h]

/-- A cycle with no hold is Paused, or runs the instruction at PC (R121, R123). -/
theorem State.cycle_cases {s t : State} (h : s.cycle = .next t) :
    (s.paused ≠ s.pauseToggle ∧ t = s.samplePause.emit .pauseOverlay) ∨
    (s.paused = s.pauseToggle ∧ exec (decodeWord s.fetchWord) s.samplePause.noteFetch = .next t) := by
  unfold State.cycle at h
  split at h
  · rename_i hp
    cases h
    exact .inl ⟨by simpa using hp, rfl⟩
  · rename_i hp
    exact .inr ⟨by simpa using hp, h⟩

/-- Everything a step that answers a next state can be: CORE's turn in a hold, a Paused cycle, a Running cycle, a
tick, or a move of HOST, a key among them (R20, R121, R128, R241, R250, R251). -/
theorem step_cases {s t : State} (h : step s = .next t) :
    s.stop = false ∧
    ((∃ x, s.nextTurn = .core ∧ s.waitKey = some x ∧ exec (.ldVxK x) s.dropTurn = .next t) ∨
    (s.nextTurn = .core ∧ s.waitKey = none ∧ s.paused ≠ s.pauseToggle ∧
      t = s.dropTurn.samplePause.emit .pauseOverlay) ∨
    (s.nextTurn = .core ∧ s.waitKey = none ∧ s.paused = s.pauseToggle ∧
      exec (decodeWord s.fetchWord) s.dropTurn.samplePause.noteFetch = .next t) ∨
    (s.nextTurn = .tick ∧ t = s.dropTurn.tick) ∨
    (s.nextTurn = .pauseToggle ∧ t = s.dropTurn.raiseToggle) ∨
    (∃ k, s.nextTurn = .keyEvent k ∧ s.waitKey = none ∧ t = s.dropTurn) ∨
    (∃ k x, s.nextTurn = .keyEvent k ∧ s.waitKey = some x ∧
      t = ((s.dropTurn.offerKey k).release.setV x (keyByte k)).advance) ∨
    (s.nextTurn = .stop ∧ t = s.dropTurn.setStop)) := by
  cases hs : s.stop with
  | true => simp [step, State.oneStep, hs] at h
  | false =>
    refine ⟨rfl, ?_⟩
    rw [step_of_turn hs] at h
    cases hn : s.nextTurn with
    | core =>
      rw [hn] at h
      cases hw : s.waitKey with
      | some x => exact .inl ⟨x, rfl, rfl, by simpa [State.take, State.coreTurn, hw] using h⟩
      | none =>
        have hc : s.dropTurn.cycle = .next t := by simpa [State.take, State.coreTurn, hw] using h
        rcases State.cycle_cases hc with ⟨hp, ht⟩ | ⟨hp, he⟩
        · exact .inr (.inl ⟨rfl, rfl, hp, ht⟩)
        · exact .inr (.inr (.inl ⟨rfl, rfl, hp, he⟩))
    | tick =>
      rw [hn] at h
      cases h
      simp
    | pauseToggle =>
      rw [hn] at h
      cases h
      simp
    | keyEvent k =>
      rw [hn] at h
      cases hw : s.waitKey with
      | none =>
        rw [State.take, State.deliverKey_of_no_hold (by simpa using hw)] at h
        cases h
        simp
      | some x =>
        rw [State.take, State.deliverKey_of_hold (by simpa using hw)] at h
        cases h
        simp
    | stop =>
      rw [hn] at h
      cases h
      simp

/-- A tick while Running writes the two timers and nothing else (R241). -/
theorem State.tick_of_running {s : State} (h : s.paused = false) :
    s.tick = { s with dt := decTimer s.dt, st := decTimer s.st } := by
  unfold State.tick
  rw [if_neg (by simp [h])]
  rfl

end Sys2Proof.Machine

/-- A run whose first step answers `t` goes on from `t`. -/
theorem Sys2Proof.run_succ (M : Host.Core) (n : Nat) {s t : M.State} (h : M.step s = .next t) :
    M.run (n + 1) s = M.run n t := by
  rw [Host.Core.run, h]

/-- Two runs one after the other. -/
theorem Sys2Proof.run_add (M : Host.Core) (m n : Nat) {s t : M.State} (h : M.run m s = .next t) :
    M.run (m + n) s = M.run n t := by
  induction m generalizing s with
  | zero =>
    cases h
    simp
  | succ m ih =>
    rw [show m + 1 + n = (m + n) + 1 by omega]
    rw [Host.Core.run] at h ⊢
    cases hs : M.step s with
    | next s' =>
      rw [hs] at h
      exact ih h
    | fault r =>
      rw [hs] at h
      cases h
    | refused r =>
      rw [hs] at h
      cases h
end

