-- ==== Sys2Proof/Tests/Slice0.lean ====
section
/-! SUPPORT. The model's own tests, each about one step. Expected values are those of spec/95_test_vectors.md (the
vector's name stands in the comment), or the patterns of R91 and R94 written out by hand. The last part shows, for
every obligation with hypotheses, a state and operands that meet them. -/

namespace Sys2Proof.Tests

open Sys2Proof Sys2Proof.Machine

/-- The answer is a next state, and it has the property. -/
def after (r : Result) (p : State → Bool) : Bool :=
  match r with
  | .next t => p t
  | _ => false

/-- The state after reset with some V registers set. -/
def regs (l : List (Reg × Byte)) : State := l.foldl (fun s p => s.setV p.1 p.2) State.reset

/-- A state with bytes in memory from an address on. -/
def bytesAt (a : Nat) (bs : List Byte) (s : State) : State := { s with mem := s.mem.load a bs }

/-- One step from a state with a word where the next fetch reads it. -/
def runs (w : Word) (s : State) (p : State → Bool) : Bool := after (step (s.placeWord w)) p

/-! ### WellFormed: an ill-formed term for each check, and its neighbour -/

theorem test_wf_sys_is_not_cls : (Instr.sys 0x0E0).wellFormed = false ∧ (Instr.sys 0x0E1).wellFormed = true := by
  decide

theorem test_wf_sys_is_not_ret : (Instr.sys 0x0EE).wellFormed = false ∧ (Instr.sys 0x1EE).wellFormed = true := by
  decide

theorem test_wf_unknown_holds_no_known_word :
    (Instr.unknown 0x5AB0).wellFormed = false ∧ (Instr.unknown 0x8AB6).wellFormed = false ∧
    (Instr.unknown 0x9AB0).wellFormed = false ∧ (Instr.unknown 0xE1A1).wellFormed = false ∧
    (Instr.unknown 0xF165).wellFormed = false ∧ (Instr.unknown 0x00EE).wellFormed = false ∧
    (Instr.unknown 0x5AB1).wellFormed = true ∧ (Instr.unknown 0x8AB8).wellFormed = true ∧
    (Instr.unknown 0x9ABF).wellFormed = true ∧ (Instr.unknown 0xE19F).wellFormed = true ∧
    (Instr.unknown 0xF175).wellFormed = true := by
  decide

theorem test_truncated_bytes_are_refused : decode [0x00] = .error .truncated := by rfl

/-! ### Decode: a word of every constructor, its bits from R91 and R94 -/

theorem test_decode_control :
    decodeWord 0b0000000011100000 = .cls ∧ decodeWord 0b0000000011101110 = .ret ∧
    decodeWord 0b0000001000110100 = .sys 0x234 ∧ decodeWord 0b0001001000110100 = .jp 0x234 ∧
    decodeWord 0b0010001100000000 = .call 0x300 ∧ decodeWord 0b1011111111111111 = .jpV0 0xFFF := by
  decide

theorem test_decode_skips :
    decodeWord 0b0011101000000101 = .seByte 0xA 5 ∧ decodeWord 0b0100101000000101 = .sneByte 0xA 5 ∧
    decodeWord 0b0101000100100000 = .seReg 1 2 ∧ decodeWord 0b1001000100100000 = .sneReg 1 2 ∧
    decodeWord 0b1110001110011110 = .skp 3 ∧ decodeWord 0b1110001110100001 = .sknp 3 := by
  decide

theorem test_decode_immediates :
    decodeWord 0b0110101000001111 = .ldByte 0xA 0x0F ∧ decodeWord 0b0111101000000101 = .addByte 0xA 5 ∧
    decodeWord 0b1010001011110000 = .ldI 0x2F0 ∧ decodeWord 0b1100001100001111 = .rnd 3 0x0F ∧
    decodeWord 0b1101000100100101 = .drw 1 2 5 := by
  decide

theorem test_decode_register_pairs :
    decodeWord 0b1000000100100000 = .ldReg 1 2 ∧ decodeWord 0b1000000100100001 = .orReg 1 2 ∧
    decodeWord 0b1000000100100010 = .andReg 1 2 ∧ decodeWord 0b1000000100100011 = .xorReg 1 2 ∧
    decodeWord 0b1000000100100100 = .addReg 1 2 ∧ decodeWord 0b1000000100100101 = .sub 1 2 ∧
    decodeWord 0b1000000100100110 = .shr 1 2 ∧ decodeWord 0b1000000100100111 = .subn 1 2 ∧
    decodeWord 0b1000000100101110 = .shl 1 2 := by
  decide

theorem test_decode_group_f :
    decodeWord 0b1111001100000111 = .ldVxDT 3 ∧ decodeWord 0b1111010100001010 = .ldVxK 5 ∧
    decodeWord 0b1111000000010101 = .ldDTVx 0 ∧ decodeWord 0b1111000100011000 = .ldSTVx 1 ∧
    decodeWord 0b1111001000011110 = .addIVx 2 ∧ decodeWord 0b1111001000101001 = .ldFVx 2 ∧
    decodeWord 0b1111000000110011 = .ldBVx 0 ∧ decodeWord 0b1111001001010101 = .ldMemVx 2 ∧
    decodeWord 0b1111001001100101 = .ldVxMem 2 := by
  decide

/-- A word of every hole of R97. -/
theorem test_decode_unknown :
    decodeWord 0b0101000100100001 = .unknown 0x5121 ∧ decodeWord 0b1000000000001111 = .unknown 0x800F ∧
    decodeWord 0b1001000000000001 = .unknown 0x9001 ∧ decodeWord 0b1110000010100010 = .unknown 0xE0A2 ∧
    decodeWord 0b1111000000000000 = .unknown 0xF000 := by
  decide

/-- The table's word, laid out in bytes and decoded; more bits than a word has give nothing. -/
theorem test_decode_table_word :
    decodeTableWord 16 0xD125 = some (.drw 1 2 5) ∧ decodeTableWord 16 0x00E0 = some .cls ∧
    decodeTableWord 17 0x00E0 = none := by
  decide

/-! ### Steps: control transfer, skips, no-ops -/

/-- T2. -/
theorem test_sys : runs 0x0000 State.reset (fun t => t.pc == 0x0202 && t.log == [] && t.anom == 0) = true := by decide

/-- T3. -/
theorem test_unknown :
    runs 0x5121 State.reset (fun t => t.pc == 0x0202 && t.log == [⟨.decodeUnknown, 0x5121⟩] &&
      t.anomBit .decodeUnknown && t.anom == 1) = true := by
  decide

/-- T13: an odd target. -/
theorem test_jp : runs 0x1001 State.reset (fun t => t.pc == 0x0001 && t.log == []) = true := by decide

/-- T14: the cycle after JP 0xFFF, whose fetch wraps. -/
theorem test_fetch_wraps :
    after (step { State.reset with pc := 0x0FFF })
      (fun t => t.pc == 0x1001 && t.log == [⟨.memRange, 0x1000⟩] && t.anomBit .memRange) = true := by
  decide

/-- T16. -/
theorem test_jpV0 : runs 0xBFFF (regs [(0, 0xFF)]) (fun t => t.pc == 0x10FE) = true := by decide

/-- T18: the sixteenth address. -/
theorem test_call :
    runs 0x2300 { State.reset with pc := 0x204, sp := 15 }
      (fun t => t.pc == 0x0300 && t.sp == 16 && t.stack.get 15 == 0x0206 && t.log == []) = true := by
  decide

/-- T19: the seventeenth. -/
theorem test_call_overflow :
    runs 0x2300 { State.reset with pc := 0x204, sp := 16 }
      (fun t => t.pc == 0x0206 && t.sp == 16 && t.log == [⟨.stackOverflow, 0x0204⟩] &&
        t.anomBit .stackOverflow) = true := by
  decide

/-- T20. -/
theorem test_ret :
    runs 0x00EE { State.reset with pc := 0x302, sp := 1, stack := State.reset.stack.set 0 0x0206 }
      (fun t => t.pc == 0x0206 && t.sp == 0) = true := by
  decide

/-- T21. -/
theorem test_ret_underflow :
    runs 0x00EE { State.reset with pc := 0x302 }
      (fun t => t.pc == 0x0304 && t.sp == 0 && t.log == [⟨.stackUnderflow, 0x0302⟩] &&
        t.anomBit .stackUnderflow) = true := by
  decide

/-- T22, T23. -/
theorem test_seByte :
    runs 0x3A05 (regs [(0xA, 5)]) (·.pc == 0x0204) = true ∧ runs 0x3A05 (regs [(0xA, 6)]) (·.pc == 0x0202) = true := by
  decide

/-- T33: PC wraps past the top, and both bytes of the fetch are logged. -/
theorem test_seByte_wraps :
    runs 0x3000 { State.reset with pc := 0xFFFE }
      (fun t => t.pc == 0x0002 && t.log == [⟨.memRange, 0xFFFE⟩, ⟨.memRange, 0xFFFF⟩]) = true := by
  decide

/-- T24, T25. -/
theorem test_sneByte :
    runs 0x4A05 (regs [(0xA, 5)]) (·.pc == 0x0202) = true ∧ runs 0x4A05 (regs [(0xA, 6)]) (·.pc == 0x0204) = true := by
  decide

/-- T26, T27. -/
theorem test_seReg :
    runs 0x5120 (regs [(1, 9), (2, 9)]) (·.pc == 0x0204) = true ∧
    runs 0x5120 (regs [(1, 9), (2, 8)]) (·.pc == 0x0202) = true := by
  decide

/-- T29, T30. -/
theorem test_sneReg :
    runs 0x9120 (regs [(1, 9), (2, 8)]) (·.pc == 0x0204) = true ∧
    runs 0x9120 (regs [(1, 9), (2, 9)]) (·.pc == 0x0202) = true := by
  decide

/-! ### Steps: arithmetic, logic, shifts, random -/

/-- A1, A4. -/
theorem test_addByte :
    runs 0x7A05 (regs [(0xA, 0xFE), (0xF, 0x55)]) (fun t => t.getV 0xA == 0x03 && t.getV 0xF == 0x55) = true ∧
    runs 0x7F01 (regs [(0xF, 0xFF)]) (·.getV 0xF == 0x00) = true := by
  decide

/-- A5, A6. -/
theorem test_addReg :
    runs 0x8124 (regs [(1, 0xFF), (2, 0x01)])
      (fun t => t.getV 1 == 0x00 && t.getV 2 == 0x01 && t.getV 0xF == 0x01) = true ∧
    runs 0x8124 (regs [(1, 0xFE), (2, 0x01), (0xF, 1)]) (fun t => t.getV 1 == 0xFF && t.getV 0xF == 0x00) = true := by
  decide

/-- A9, A11: VF as the destination, and as the addend. -/
theorem test_addReg_vf :
    runs 0x8F14 (regs [(0xF, 0x10), (1, 0x20)]) (·.getV 0xF == 0x00) = true ∧
    runs 0x81F4 (regs [(1, 0xFF), (0xF, 0x01)]) (fun t => t.getV 1 == 0x00 && t.getV 0xF == 0x01) = true := by
  decide

/-- A13. -/
theorem test_orReg :
    runs 0x8121 (regs [(1, 0xF0), (2, 0x0F), (0xF, 0x55)])
      (fun t => t.getV 1 == 0xFF && t.getV 0xF == 0x55) = true := by
  decide

/-- A14. -/
theorem test_andReg :
    runs 0x8122 (regs [(1, 0xF3), (2, 0x3F), (0xF, 0x55)])
      (fun t => t.getV 1 == 0x33 && t.getV 0xF == 0x55) = true := by
  decide

/-- A15. -/
theorem test_xorReg :
    runs 0x8123 (regs [(1, 0xFF), (2, 0x0F), (0xF, 0x55)])
      (fun t => t.getV 1 == 0xF0 && t.getV 0xF == 0x55) = true := by
  decide

/-- A17, A18. -/
theorem test_sub :
    runs 0x8125 (regs [(1, 0x01), (2, 0x02)]) (fun t => t.getV 1 == 0xFF && t.getV 0xF == 0x00) = true ∧
    runs 0x8125 (regs [(1, 0x05), (2, 0x05)]) (fun t => t.getV 1 == 0x00 && t.getV 0xF == 0x01) = true := by
  decide

/-- A23, A24. -/
theorem test_subn :
    runs 0x8127 (regs [(1, 0x02), (2, 0x01)]) (fun t => t.getV 1 == 0xFF && t.getV 0xF == 0x00) = true ∧
    runs 0x8127 (regs [(1, 0x01), (2, 0x05)]) (fun t => t.getV 1 == 0x04 && t.getV 0xF == 0x01) = true := by
  decide

/-- A26, A29. -/
theorem test_shr :
    runs 0x8126 (regs [(1, 0x03), (2, 0xF0)])
      (fun t => t.getV 1 == 0x01 && t.getV 2 == 0xF0 && t.getV 0xF == 0x01) = true ∧
    runs 0x8F06 (regs [(0xF, 0x06)]) (·.getV 0xF == 0x00) = true := by
  decide

/-- A31, A35. -/
theorem test_shl :
    runs 0x812E (regs [(1, 0x81), (2, 0x0F)])
      (fun t => t.getV 1 == 0x02 && t.getV 2 == 0x0F && t.getV 0xF == 0x01) = true ∧
    runs 0x8F0E (regs [(0xF, 0xC0)]) (·.getV 0xF == 0x01) = true := by
  decide

/-- A37, A39. -/
theorem test_addIVx :
    runs 0xF21E { regs [(2, 0x01), (0xF, 0x55)] with i := 0x0FFF }
      (fun t => t.i == 0x1000 && t.getV 0xF == 0x55 && t.log == []) = true ∧
    runs 0xF21E { regs [(2, 0xFF)] with i := 0xFF80 } (fun t => t.i == 0x007F) = true := by
  decide

/-- A40, A41. -/
theorem test_rnd :
    runs 0xC30F { regs [(0xF, 0x55)] with randIn := [0xA7, 0x11] }
      (fun t => t.getV 3 == 0x07 && t.getV 0xF == 0x55 && t.randIn == [0x11]) = true ∧
    runs 0xC300 { State.reset with randIn := [0xFF] } (·.getV 3 == 0x00) = true := by
  decide

/-! ### Steps: loads -/

/-- L1, L2. -/
theorem test_ldByte :
    runs 0x6A0F State.reset (·.getV 0xA == 0x0F) = true ∧ runs 0x6F77 State.reset (·.getV 0xF == 0x77) = true := by
  decide

/-- L3. -/
theorem test_ldReg :
    runs 0x8120 (regs [(2, 0x7C)]) (fun t => t.getV 1 == 0x7C && t.getV 2 == 0x7C) = true := by
  decide

/-- L4, L5. -/
theorem test_ldI :
    runs 0xA2F0 State.reset (·.i == 0x02F0) = true ∧ runs 0xAFFF State.reset (·.i == 0x0FFF) = true := by
  decide

/-- L6. -/
theorem test_ldVxDT :
    runs 0xF307 { State.reset with dt := 0x2A } (fun t => t.getV 3 == 0x2A && t.dt == 0x2A) = true := by
  decide

/-- L7. -/
theorem test_ldDTVx : runs 0xF015 (regs [(0, 0x3C)]) (·.dt == 0x3C) = true := by decide

/-- L8. -/
theorem test_ldSTVx : runs 0xF118 (regs [(1, 2)]) (fun t => t.st == 0x02 && t.tone) = true := by decide

/-- L9: the step that fetches FX0A holds. -/
theorem test_ldVxK_holds :
    runs 0xF50A State.reset (fun t => t.pc == 0x0200 && t.waitKey == some 5 && t.getV 5 == 0) = true := by
  decide

/-- L9: the key event finishes it in its own step, whatever memory now holds (R128). -/
theorem test_ldVxK_takes_the_key :
    runs 0x0000 { State.reset with waitKey := some 5, agenda := [.keyEvent 0xB] }
      (fun t => t.getV 5 == 0x0B && t.pc == 0x0202 && t.waitKey == none && t.keyEvent == none) = true := by
  decide

/-- L12, L14. -/
theorem test_ldFVx :
    runs 0xF229 (regs [(2, 0x0F)]) (fun t => t.i == 0x004B && t.log == []) = true ∧
    runs 0xF229 (regs [(2, 0xFF)])
      (fun t => t.i == 0x04FB && t.log == [⟨.operandRange, 0x00FF⟩] && t.anomBit .operandRange) = true := by
  decide

/-- L15. -/
theorem test_ldBVx :
    runs 0xF033 { regs [(0, 0xEA)] with i := 0x0300 }
      (fun t => t.byteAt 0x300 == 2 && t.byteAt 0x301 == 3 && t.byteAt 0x302 == 4 && t.i == 0x0300) = true := by
  decide

/-- L20: across the top of memory. -/
theorem test_ldBVx_wraps :
    runs 0xF033 { regs [(0, 0x7B)] with i := 0x0FFE }
      (fun t => t.byteAt 0xFFE == 1 && t.byteAt 0xFFF == 2 && t.byteAt 0x000 == 3 &&
        t.log == [⟨.memRange, 0x1000⟩]) = true := by
  decide

/-- L21. -/
theorem test_ldMemVx :
    runs 0xF255 { regs [(0, 0x11), (1, 0x22), (2, 0x33), (3, 0x44)] with i := 0x0400 }
      (fun t => t.byteAt 0x400 == 0x11 && t.byteAt 0x401 == 0x22 && t.byteAt 0x402 == 0x33 &&
        t.byteAt 0x403 == 0x00 && t.i == 0x0400) = true := by
  decide

/-- L23, its last register and its records. -/
theorem test_ldMemVx_wraps :
    runs 0xFF55 { regs [(7, 0xA7), (8, 0xA8), (0xF, 0xAF)] with i := 0x0FF8 }
      (fun t => t.byteAt 0xFFF == 0xA7 && t.byteAt 0x000 == 0xA8 && t.byteAt 0x007 == 0xAF &&
        t.log.map (·.info) == [0x1000, 0x1001, 0x1002, 0x1003, 0x1004, 0x1005, 0x1006, 0x1007]) = true := by
  decide

/-- L24. -/
theorem test_ldVxMem :
    runs 0xF265 (bytesAt 0x300 [2, 3, 4, 5] { regs [(3, 0x99)] with i := 0x0300 })
      (fun t => t.getV 0 == 2 && t.getV 1 == 3 && t.getV 2 == 4 && t.getV 3 == 0x99 && t.i == 0x0300) = true := by
  decide

/-- L25: the first font bytes. -/
theorem test_ldVxMem_font :
    runs 0xFF65 State.reset
      (fun t => t.v.toList == [0xF0, 0x90, 0x90, 0x90, 0xF0, 0x20, 0x60, 0x20, 0x20, 0x70, 0xF0, 0x10, 0xF0,
        0x80, 0xF0, 0xF0]) = true := by
  decide

/-! ### Steps: display and keypad -/

/-- D1. -/
theorem test_cls :
    runs 0x00E0 { regs [(0xF, 0x55)] with fb := (State.reset.fb.flip 3 4).flip 31 63 }
      (fun t => t.fb == Frame.blank && t.getV 0xF == 0x55 && t.display == [.clear]) = true := by
  decide

/-- D2: the column wraps. -/
theorem test_drw_wraps :
    runs 0xD121 (bytesAt 0x300 [0xC0] { regs [(1, 63), (2, 31)] with i := 0x0300 })
      (fun t => t.fb == (Frame.blank.flip 31 63).flip 31 0 && t.getV 0xF == 0 && t.display == [.render]) = true := by
  decide

/-- D7: one pixel was on. -/
theorem test_drw_collides :
    runs 0xD121 (bytesAt 0x300 [0xF0] { regs [(1, 10), (2, 5)] with i := 0x0300, fb := State.reset.fb.flip 5 11 })
      (fun t => t.fb == ((Frame.blank.flip 5 10).flip 5 12).flip 5 13 && t.getV 0xF == 1) = true := by
  decide

/-- K1, K5. -/
theorem test_skp :
    runs 0xE39E { regs [(3, 7)] with keyDownIn := [true] } (fun t => t.pc == 0x0204 && t.log == []) = true ∧
    runs 0xE39E { regs [(3, 0x17)] with keyDownIn := [true] }
      (fun t => t.pc == 0x0204 && t.log == [⟨.operandRange, 0x0017⟩]) = true := by
  decide

/-- K3, K6: KeyUp is its own query. -/
theorem test_sknp :
    runs 0xE3A1 { regs [(3, 7)] with keyUpIn := [true], keyDownIn := [true] } (·.pc == 0x0204) = true ∧
    runs 0xE3A1 { regs [(3, 7)] with keyUpIn := [false], keyDownIn := [false] }
      (fun t => t.pc == 0x0202 && t.keyDownIn == [false]) = true := by
  decide

/-! ### Steps of the other agents, and of CORE while Paused -/

/-- TM1's fifth tick, TM2's second. -/
theorem test_tick :
    after (step { State.reset with dt := 1, st := 0, agenda := [.tick] })
      (fun t => t.dt == 0 && t.st == 0 && t.pc == 0x0200 && t.agenda == []) = true ∧
    after (step { State.reset with st := 1, agenda := [.tick] }) (fun t => t.st == 0 && !t.tone) = true := by
  decide

/-- TM3. -/
theorem test_tick_paused :
    after (step { State.reset with dt := 5, paused := true, agenda := [.tick] }) (fun t => t.dt == 5) = true := by
  decide

/-- PZ1. -/
theorem test_pause :
    runs 0x6A0F { State.reset with pauseToggle := true }
      (fun t => t.paused && t.display == [.pauseOverlay] && t.pc == 0x0200 && t.getV 0xA == 0) = true := by
  decide

/-- PZ3. -/
theorem test_unpause_runs_in_the_same_cycle :
    runs 0x6A0F { State.reset with paused := true, pauseToggle := true }
      (fun t => !t.paused && t.pc == 0x0202 && t.getV 0xA == 0x0F) = true := by
  decide

/-- R251: STOP ends the run. -/
theorem test_stop :
    after (step { State.reset with agenda := [.stop] }) (fun t => t.stop && t.pc == 0x0200) = true ∧
    step { State.reset with stop := true } = .fault .stopped :=
  ⟨by decide, rfl⟩

/-- The placed instruction runs next, even from a stopped, paused state in a hold. -/
theorem test_withFetchWord :
    after (step (State.reset.withFetchWord 16 0x6A0F)) (fun t => t.getV 0xA == 0x0F && t.pc == 0x0202) = true ∧
    after (step ({ State.reset with stop := true, paused := true, waitKey := some 3, agenda := [.tick] }.withFetchWord
      16 0x6A0F)) (fun t => t.getV 0xA == 0x0F && t.pc == 0x0202 && t.agenda == [.tick]) = true := by
  decide

/-- R251, R128: STOP after the key finds LD Vx, K finished; STOP before it leaves PC at the FX0A. -/
theorem test_stop_in_a_hold :
    after (Sys2Proof.core.run 2 { State.reset with waitKey := some 5, agenda := [.keyEvent 0xB, .stop] })
      (fun t : State => t.stop && t.getV 5 == 0x0B && t.pc == 0x0202 && t.waitKey == none) = true ∧
    after (step { State.reset with waitKey := some 5, agenda := [.stop, .keyEvent 0xB] })
      (fun t => t.stop && t.getV 5 == 0 && t.pc == 0x0200) = true := by
  decide

/-- R122, R231: the toggle is raised, and a key event outside a hold is ignored. -/
theorem test_host_moves :
    after (step { State.reset with agenda := [.pauseToggle] }) (fun t => t.pauseToggle && !t.paused) = true ∧
    after (step { State.reset with agenda := [.keyEvent 3] }) (fun t => t == State.reset) = true := by
  decide

/-! ### Witnesses: hypotheses that can be met, each clause on its own -/

theorem witness_DecodeOfEncodedInstruction :
    (Instr.sys 0x0E1).wellFormed = true ∧ (Instr.unknown 0xFFFF).wellFormed = true ∧
    (Instr.drw 0xF 0xF 0xF).wellFormed = true := by
  decide

theorem witness_OpcodeRowsOverlapOnlyAtSys :
    (opcodeRows[0]?.map (·.accepts 0x00E0)) = some true ∧ (opcodeRows[1]?.map (·.accepts 0x00EE)) = some true ∧
    (opcodeRows[2]?.map fun r => r.accepts 0x00E0 && r.accepts 0x00EE) = some true := by
  decide

theorem witness_UnknownWordsAreThoseOfTheTable :
    isUnknownWord 0x5001 = true ∧ isUnknownWord 0x5000 = false ∧ isUnknownWord 0x8008 = true ∧
    isUnknownWord 0x8007 = false ∧ isUnknownWord 0xF066 = true ∧ isUnknownWord 0xF065 = false ∧
    isUnknownWord 0x0000 = false ∧ isUnknownWord 0xFFFF = true := by
  decide

theorem witness_StepRunsTheDecodedInstruction :
    let s : State := State.reset.placeWord 0x6A0F
    s.stop = false ∧ s.nextTurn = .core ∧ s.waitKey = none ∧ s.paused = s.pauseToggle ∧
      decode [s.byteAt s.pc, s.byteAt (s.pc + 1)] = .ok (.ldByte 0xA 0x0F, []) := by
  exact ⟨rfl, rfl, rfl, rfl, by rfl⟩

theorem witness_FetchIsBigEndian :
    let s : State := State.reset.placeWord 0x6A0F
    s.pc = 0x200 ∧ s.byteAt 0x200 = 0x6A ∧ s.byteAt 0x201 = 0x0F := by
  decide

/-- Every clause at both ends of its range. -/
theorem witness_FetchLogsOutOfRangeBytes :
    ([0x0000, 0x0FFE, 0x0FFF, 0x1000, 0xFFFE, 0xFFFF].map fun p : Word =>
      (({ State.reset with pc := p } : State).noteFetch.log.map LogRecord.info)) =
      [[], [], [0x1000], [0x1000, 0x1001], [0xFFFE, 0xFFFF], [0xFFFF]] := by
  decide

theorem witness_PausedCycleMutatesNothing :
    (let s : State := { State.reset with pauseToggle := true }
     s.stop = false ∧ s.nextTurn = .core ∧ s.waitKey = none ∧ s.paused ≠ s.pauseToggle) ∧
    (let s : State := { State.reset with paused := true }
     s.stop = false ∧ s.nextTurn = .core ∧ s.waitKey = none ∧ s.paused ≠ s.pauseToggle) ∧
    (let s : State := { State.reset with paused := true, agenda := [.tick] }
     s.stop = false ∧ s.nextTurn = .tick ∧ s.paused = true) := by
  decide

/-- A step that leaves Paused: also a witness for `PauseChangesOnlyAtTheTopOfACycle`. -/
theorem witness_pause_ends :
    ∃ s t : State, step s = .next t ∧ s.paused = true ∧ t.paused = false :=
  ⟨{ State.reset with paused := true, pauseToggle := true }, _, rfl, rfl, rfl⟩

theorem witness_PauseChangesOnlyAtTheTopOfACycle :
    (∃ s t : State, step s = .next t ∧ t.paused ≠ s.paused) ∧
    (let s : State := { State.reset with agenda := [.pauseToggle] }
     s.stop = false ∧ s.nextTurn = .pauseToggle) :=
  ⟨⟨{ State.reset with pauseToggle := true }, _, rfl, by decide⟩, by decide⟩

theorem witness_TickDecrementsBothTimers :
    let s : State := { State.reset with dt := 0, st := 0xFF, agenda := [.tick] }
    s.stop = false ∧ s.nextTurn = .tick ∧ s.paused = false := by
  decide

theorem witness_TimersReachZeroAndStay :
    let s : State := { State.reset with dt := 5, agenda := List.replicate 7 Turn.tick ++ [.core] }
    s.stop = false ∧ s.paused = false ∧ s.agenda = List.replicate 7 Turn.tick ++ [.core] := by
  decide

theorem witness_StepStopsExactlyWhenStopped :
    { State.reset with stop := true }.stop = true ∧ State.reset.stop = false ∧
    (let s : State := { State.reset with agenda := [.stop] }
     s.stop = false ∧ s.nextTurn = .stop) ∧
    ∃ t, step { State.reset with agenda := [.tick] } = .next t ∧
      ({ State.reset with agenda := [.tick] } : State).nextTurn ≠ .stop :=
  ⟨rfl, rfl, by decide, _, rfl, by decide⟩

theorem witness_HoldRunsNothingUntilAKeyArrives :
    (let s : State := { State.reset with waitKey := some 0xF }
     s.stop = false ∧ s.nextTurn = .core ∧ s.waitKey = some 0xF ∧ s.keyEvent = none) ∧
    (let s : State := { State.reset with waitKey := some 0, agenda := [.keyEvent 0xF, .stop] }
     s.stop = false ∧ s.waitKey = some 0 ∧ s.nextTurn = .keyEvent 0xF ∧ s.agenda = .keyEvent 0xF :: .stop :: []) ∧
    (let s : State := { State.reset with waitKey := some 5, agenda := [.stop] }
     s.stop = false ∧ s.waitKey = some 5 ∧ s.agenda = .stop :: []) ∧
    (let s : State := { State.reset with agenda := [.keyEvent 3] }
     s.stop = false ∧ s.nextTurn = .keyEvent 3 ∧ s.waitKey = none) := by
  decide

/-- KW1. -/
theorem witness_KeyWaitFromFetchToKey :
    let s : State := { State.reset.placeWord 0xF50A with
      dt := 2, agenda := .core :: (List.replicate 2 Turn.tick ++ .keyEvent 3 :: []) }
    s.stop = false ∧ s.waitKey = none ∧ s.keyEvent = none ∧ s.paused = false ∧ s.pauseToggle = false ∧
      s.pc.toNat < 0x0FFF ∧ s.fetchWord = encode (.ldVxK 5) ∧
      s.agenda = .core :: (List.replicate 2 Turn.tick ++ .keyEvent 3 :: []) := by
  decide

/-- END at 0x200, and at the highest address below 0xFFF. -/
theorem witness_EndIsAFixedPoint :
    (let s : State := State.reset.placeWord 0x1200
     (s.paused = false ∧ s.waitKey = none ∧ s.pc.toNat < 0x1000 ∧ s.fetchWord = 0x1000 + s.pc) ∧
       s.pc.toNat < 0x0FFF ∧ s.stop = false ∧ s.pauseToggle = false ∧ s.nextTurn = .core) ∧
    (let s : State := { State.reset with pc := 0xFFE }.placeWord 0x1FFE
     (s.paused = false ∧ s.waitKey = none ∧ s.pc.toNat < 0x1000 ∧ s.fetchWord = 0x1000 + s.pc) ∧
       s.pc.toNat < 0x0FFF ∧ s.stop = false ∧ s.pauseToggle = false ∧ s.nextTurn = .core) := by
  decide

/-- Each clause at the ends of its range: 0 and 15 live addresses, then 16. -/
theorem witness_CallPushesOrIsALoggedNoOp :
    State.reset.sp.val < 16 ∧ { State.reset with sp := 15 }.sp.val < 16 ∧
      { State.reset with sp := 16 }.sp.val = 16 := by
  decide

/-- Each clause at the ends of its range: 16 and 1 live addresses, then 0. -/
theorem witness_RetPopsOrIsALoggedNoOp :
    { State.reset with sp := 16 }.sp.val = (15 : Fin 16).val + 1 ∧
      { State.reset with sp := 1 }.sp.val = (0 : Fin 16).val + 1 ∧ State.reset.sp.val = 0 := by
  decide

theorem witness_ReturnResumesAfterTheCall :
    let s : State := { State.reset with sp := 15 }
    s.sp.val < 16 ∧ (s.callTo 0x300).stack = (s.callTo 0x300).stack ∧ (s.callTo 0x300).sp = 16 :=
  ⟨by decide, rfl, rfl⟩

theorem witness_KeyLoadCompletesOrHolds :
    { State.reset with keyEvent := some 0xF }.keyEvent = some 0xF ∧ State.reset.keyEvent = none := by
  decide

/-- L20's addresses: an address the three stores reach modulo 4096, and one they do not. -/
theorem witness_BcdStoresThreeDigits :
    let s : State := { State.reset with i := 0x0FFE }
    (s.dataAddr 2).toNat % 4096 = 0 ∧ ∀ k < 3, (0x001 : Word).toNat % 4096 ≠ (s.dataAddr k).toNat % 4096 := by
  decide

theorem witness_BlockStoreWritesV0ToVx :
    let s : State := { State.reset with i := 0x0FF8 }
    (0xF : Reg).toNat ≤ (0xF : Reg).toNat ∧ (0 : Reg).toNat ≤ (0 : Reg).toNat ∧
      ∀ k ≤ (0xF : Reg).toNat, (0x008 : Word).toNat % 4096 ≠ (s.dataAddr k).toNat % 4096 := by
  decide

theorem witness_BlockLoadReadsV0ToVx :
    (0 : Reg).toNat ≤ (0 : Reg).toNat ∧ (0xF : Reg).toNat ≤ (0xF : Reg).toNat ∧
      (0 : Reg).toNat < (1 : Reg).toNat ∧ (0xE : Reg).toNat < (0xF : Reg).toNat := by
  decide

theorem witness_BlockStoreThenLoadRoundTrip :
    ∃ t u : State, exec (.ldMemVx 0xF) { State.reset with i := 0x0FF8 } = .next t ∧ u.mem = t.mem ∧ u.i = 0x0FF8 ∧
      (0xF : Reg).toNat ≤ (0xF : Reg).toNat :=
  ⟨_, _, rfl, rfl, rfl, by decide⟩

/-- The premise on x in the statements of the flag-writing instructions. -/
theorem witness_x_is_not_VF : (0xE : Reg) ≠ VF ∧ (0 : Reg) ≠ VF := by decide

theorem witness_LogicActsOnEachBit : 0 < 8 ∧ 7 < 8 := by decide

theorem witness_RandomIsMasked :
    { State.reset with randIn := [0xA7, 0x11] }.randIn = 0xA7 :: [0x11] ∧ (0x00 : Byte) = 0 := by
  decide

/-- D2's sprite: a covered pixel, one that is not, and a covered pixel that is on. -/
theorem witness_DrawFlipsExactlyTheCoveredPixels :
    let s : State := { bytesAt 0x300 [0xC0] { regs [(1, 63), (2, 31)] with i := 0x0300 } with
      fb := State.reset.fb.flip 31 0 }
    s.SpriteCovers 8 (s.getV 1).toNat (s.getV 2).toNat (1 : BitVec 4).toNat 31 0 ∧
      s.fb.pixel 31 0 = true ∧ ¬ s.SpriteCovers 8 (s.getV 1).toNat (s.getV 2).toNat (1 : BitVec 4).toNat 31 1 := by
  refine ⟨⟨0, by decide, 1, by decide, by decide, by decide, by decide⟩, by decide, ?_⟩
  rintro ⟨k, hk, j, hj, h1, h2, h3⟩
  have hk : k < 1 := hk
  interval_cases k
  revert h3 h2
  clear h1
  interval_cases j <;> decide

/-- The same clause when no covered pixel is on. -/
theorem witness_draw_without_collision :
    let s : State := bytesAt 0x300 [0xC0] { regs [(1, 63), (2, 31)] with i := 0x0300 }
    ∀ r c, s.SpriteCovers 8 (s.getV 1).toNat (s.getV 2).toNat (1 : BitVec 4).toNat r c → s.fb.pixel r c = false :=
  fun r c _ => Frame.pixel_blank r c

theorem witness_DrawingTwiceClearsAndCollides :
    let s : State := bytesAt 0x300 [0xC0] { regs [(1, 63), (2, 31)] with i := 0x0300 }
    (∀ r c, s.SpriteCovers 8 (s.getV 1).toNat (s.getV 2).toNat (1 : BitVec 4).toNat r c → s.fb.pixel r c = false) ∧
      (∃ r c, s.SpriteCovers 8 (s.getV 1).toNat (s.getV 2).toNat (1 : BitVec 4).toNat r c) ∧
      ∃ t u : State, exec (.drw 1 2 1) s = .next t ∧ u.fb = t.fb ∧ u.mem = s.mem ∧ u.i = s.i ∧
        u.getV 1 = s.getV 1 ∧ u.getV 2 = s.getV 2 :=
  ⟨fun r c _ => Frame.pixel_blank r c, ⟨31, 0, 0, by decide, 1, by decide, by decide, by decide, by decide⟩,
    _, _, rfl, rfl, by decide, by decide, by decide, by decide⟩

/-- Glyph A, five rows. -/
theorem witness_SevenAndEightColumnsAgree :
    ∀ k < 5, ({ State.reset with i := 0x0032 }.byteAt ({ State.reset with i := 0x0032 }.dataAddr k)).getLsbD 0 =
      false := by
  decide

theorem witness_KeySkipsFollowHostsAnswer :
    let s : State := { regs [(3, 0x17)] with keyDownIn := [true], keyUpIn := [false] }
    (7 : Key).toNat = (s.getV 3).toNat % 16 ∧ s.keyDownIn = true :: [] ∧ s.keyUpIn = false :: [] := by
  decide

/-- An address, a distant one with the same low bits, and one with others; in range and out of it. -/
theorem witness_MemoryWriteThenRead :
    (0x1FFF : Word).toNat % 4096 = (0x0FFF : Word).toNat % 4096 ∧
      (0x1000 : Word).toNat % 4096 ≠ (0x0FFF : Word).toNat % 4096 ∧
      (0x0FFF : Word).toNat < 0x1000 ∧ ¬ (0x1000 : Word).toNat < 0x1000 := by
  decide

theorem witness_StoreIsSeenByTheNextFetch :
    1 ≤ (1 : Reg).toNat ∧ ∃ t u : State, exec (.ldMemVx 1) { State.reset with i := 0x0208 } = .next t ∧
      u.mem = t.mem ∧ u.pc = 0x0208 :=
  ⟨by decide, _, { State.reset with
    mem := (({ State.reset with i := 0x0208 } : State).storeRegs 2).mem, pc := 0x0208 }, rfl, rfl, rfl⟩

/-- Both clauses at both ends of their ranges. -/
theorem witness_ResetWithAnyFilling : 0 < 80 ∧ 79 < 80 ∧ (80 ≤ 80 ∧ 80 < 4096) ∧ 80 ≤ 4095 ∧ 4095 < 4096 := by
  decide

/-- The longest program that is accepted, and addresses below it and wrapped above it. -/
theorem witness_LoadPlacesTheProgram :
    (List.replicate 3584 (0x12 : Byte)).length ≤ 3584 ∧ 3583 < (List.replicate 3584 (0x12 : Byte)).length ∧
      (0x1FF : Word).toNat % 4096 < 0x200 ∧ 0x200 + ([0x12] : List Byte).length ≤ (0x201 : Word).toNat % 4096 ∧
      State.reset.mem.wf = true := by
  simp only [List.length_replicate]
  decide

theorem witness_LoadRefusesExactlyTooLongPrograms :
    (List.replicate 3584 (0x12 : Byte)).length ≤ 0xFFF - 0x200 + 1 ∧
      0xFFF - 0x200 + 1 < (List.replicate 3585 (0x12 : Byte)).length := by
  simp only [List.length_replicate]
  decide

theorem witness_StepKeepsTheInvariant : ∃ s t : State, s.Inv ∧ step s = .next t :=
  ⟨State.reset, _, ⟨by decide, rfl, by decide, fun c => by cases c <;> decide⟩, rfl⟩

/-- An instruction that changes memory, one that changes I, one SP and STACK, one each timer, one FB. -/
theorem witness_EachFieldHasItsWriters :
    (∃ t, exec (.ldMemVx 0) { regs [(0, 7)] with i := 0x300 } = .next t ∧
      t.mem ≠ ({ regs [(0, 7)] with i := 0x300 } : State).mem) ∧
    (∃ t, exec (.ldI 5) State.reset = .next t ∧ t.i ≠ State.reset.i) ∧
    (∃ t, exec (.call 0x300) State.reset = .next t ∧ t.sp ≠ State.reset.sp) ∧
    (∃ t, exec (.ldDTVx 0) (regs [(0, 7)]) = .next t ∧ t.dt ≠ (regs [(0, 7)]).dt) ∧
    (∃ t, exec (.ldSTVx 0) (regs [(0, 7)]) = .next t ∧ t.st ≠ (regs [(0, 7)]).st) ∧
    ∃ t, exec (.drw 0 0 5) State.reset = .next t ∧ t.fb ≠ State.reset.fb :=
  ⟨⟨_, rfl, by decide⟩, ⟨_, rfl, by decide⟩, ⟨_, rfl, by decide⟩, ⟨_, rfl, by decide⟩, ⟨_, rfl, by decide⟩,
    _, rfl, by decide⟩

theorem witness_OnlyFlagWritersTouchVF :
    ∃ t, exec (.addReg 1 2) (regs [(1, 0xFF), (2, 1)]) = .next t ∧
      t.getV VF ≠ (regs [(1, 0xFF), (2, 1)]).getV VF :=
  ⟨_, rfl, by decide⟩

theorem witness_LogOnlyGrowsAndAnomIsSticky :
    ∃ t, step ({ State.reset with anom := 1 }.placeWord 0x5121) = .next t ∧
      ({ State.reset with anom := 1 }.placeWord 0x5121).anomBit .decodeUnknown = true :=
  ⟨_, rfl, by decide⟩

theorem witness_LogIsReadByNoInstruction : ∃ t, exec (.unknown 0x5121) State.reset = .next t := ⟨_, rfl⟩

theorem witness_SoundTimerIsWrittenTwoWaysAndReadByNone :
    (let s : State := { State.reset with st := 0, agenda := [.tick] }
     s.stop = false ∧ s.nextTurn = .tick ∧ s.paused = false) ∧
    (∃ t, step { State.reset with st := 1, agenda := [.tick] } = .next t ∧ t.st ≠ 1) ∧
    (∃ t, step ((regs [(1, 2)]).placeWord 0xF118) = .next t ∧ t.st ≠ ((regs [(1, 2)]).placeWord 0xF118).st) ∧
    ∃ t, exec (.ldVxDT 0) State.reset = .next t ∧ ∀ x, Instr.ldVxDT 0 ≠ .ldSTVx x :=
  ⟨by decide, ⟨_, rfl, by decide⟩, ⟨_, rfl, by decide⟩, _, rfl, by simp⟩

theorem witness_OnlyFourInstructionsAskHost :
    ∃ t, exec (.drw 1 2 5) State.reset = .next t ∧ (∀ x k, Instr.drw 1 2 5 ≠ .rnd x k) ∧
      (∀ x, Instr.drw 1 2 5 ≠ .skp x) ∧ (∀ x, Instr.drw 1 2 5 ≠ .sknp x) ∧ ∀ x, Instr.drw 1 2 5 ≠ .ldVxK x :=
  ⟨_, rfl, by simp, by simp, by simp, by simp⟩

/-- One live entry, fifteen dead ones with other contents. -/
theorem witness_DeadStackEntriesAreNotRead :
    ∃ t, exec .ret { State.reset with sp := 1 } = .next t ∧
      ∀ k : Fin 16, k.val < 1 →
        ((Vector.replicate 16 0x1234).set 0 0x0000 : Vector Word 16).get k = State.reset.stack.get k :=
  ⟨_, rfl, by decide⟩

/-- The rows of R24 that depend on a condition, on both sides of it (K1, K2, T18, T19, L9). -/
theorem test_netPc_rows :
    { State.reset with keyDownIn := [true] }.netPc (.skp 3) = 0x0204 ∧
    { State.reset with keyDownIn := [false] }.netPc (.skp 3) = 0x0202 ∧
    { State.reset with sp := 15 }.netPc (.call 0x300) = 0x0300 ∧
    { State.reset with sp := 16 }.netPc (.call 0x300) = 0x0202 ∧ State.reset.netPc .ret = 0x0202 ∧
    State.reset.netPc (.ldVxK 5) = 0x0200 ∧ { State.reset with keyEvent := some 0xB }.netPc (.ldVxK 5) = 0x0202 := by
  decide

theorem witness_AnomaliesOnlyWhereListed :
    ∃ t, exec (.ldFVx 2) (regs [(2, 0x10)]) = .next t ∧ t.log ≠ (regs [(2, 0x10)]).log :=
  ⟨_, rfl, by decide⟩

end Sys2Proof.Tests
end

section
/-! SUPPORT. The six fields of an instruction word as numbers, and how they overlap (00_scope.md R8). -/

namespace Sys2Proof

/-! ### Each field as a number -/

@[simp] theorem fieldGroup_toNat (op : Word) : (fieldGroup op).toNat = op.toNat / 4096 := by
  have hlt : op.toNat / 4096 < 16 := by omega
  rw [fieldGroup, BitVec.extractLsb'_toNat, Nat.shiftRight_eq_div_pow]
  exact Nat.mod_eq_of_lt hlt

@[simp] theorem fieldX_toNat (op : Word) : (fieldX op).toNat = op.toNat / 256 % 16 := by
  rw [fieldX, BitVec.extractLsb'_toNat, Nat.shiftRight_eq_div_pow]

@[simp] theorem fieldY_toNat (op : Word) : (fieldY op).toNat = op.toNat / 16 % 16 := by
  rw [fieldY, BitVec.extractLsb'_toNat, Nat.shiftRight_eq_div_pow]

@[simp] theorem fieldNibble_toNat (op : Word) : (fieldNibble op).toNat = op.toNat % 16 := by
  rw [fieldNibble, BitVec.extractLsb'_toNat, Nat.shiftRight_zero]

@[simp] theorem fieldByte_toNat (op : Word) : (fieldByte op).toNat = op.toNat % 256 := by
  rw [fieldByte, BitVec.extractLsb'_toNat, Nat.shiftRight_zero]

@[simp] theorem fieldAddr_toNat (op : Word) : (fieldAddr op).toNat = op.toNat % 4096 := by
  rw [fieldAddr, BitVec.extractLsb'_toNat, Nat.shiftRight_zero]

/-! ### The overlaps: neighbouring fields join into the wider one -/

theorem fieldX_append_fieldY (op : Word) : fieldX op ++ fieldY op = op.extractLsb' 4 8 :=
  BitVec.extractLsb'_append_extractLsb'_eq_extractLsb' rfl

theorem fieldY_append_fieldNibble (op : Word) : fieldY op ++ fieldNibble op = fieldByte op :=
  BitVec.extractLsb'_append_extractLsb'_eq_extractLsb' rfl

theorem fieldX_append_fieldY_append_fieldNibble (op : Word) :
    fieldX op ++ fieldY op ++ fieldNibble op = fieldAddr op := by
  rw [fieldX_append_fieldY]
  exact BitVec.extractLsb'_append_extractLsb'_eq_extractLsb' rfl

/-- Settles O6: the number of each field, and the two overlaps as joins of neighbouring bit ranges. -/
theorem fieldsOfAWord : Obligations.FieldsOfAWord := by
  intro op
  exact ⟨fieldGroup_toNat op, fieldX_toNat op, fieldY_toNat op, fieldNibble_toNat op,
    fieldByte_toNat op, fieldAddr_toNat op,
    (fieldX_append_fieldY_append_fieldNibble op).symm, (fieldY_append_fieldNibble op).symm⟩

end Sys2Proof
end

section
/-! SUPPORT. What one instruction can do to each field of the state, said once for all of them: who writes it, what
is logged and shown, where PC ends (10_state.md R22 to R39). -/

namespace Sys2Proof.Machine

/-! ### CALL and RET write only SP, STACK, PC and the records -/

theorem State.callTo_frame (s : State) (target : Word) :
    s.callTo target =
      { s with
        sp := (s.callTo target).sp, stack := (s.callTo target).stack, pc := (s.callTo target).pc,
        anom := (s.callTo target).anom, log := (s.callTo target).log } := by
  rcases s.callTo_cases target with ⟨_, e⟩ | ⟨_, e⟩ <;> exact e ▸ rfl

theorem State.returnFrom_frame (s : State) :
    s.returnFrom =
      { s with
        sp := s.returnFrom.sp, stack := s.returnFrom.stack, pc := s.returnFrom.pc,
        anom := s.returnFrom.anom, log := s.returnFrom.log } := by
  rcases s.returnFrom_cases with ⟨_, e⟩ | ⟨_, e⟩ <;> exact e ▸ rfl

/-! ### LD Vx, K finishes or holds -/

theorem exec_ldVxK_of_key {x : Reg} {s : State} {k : Key} (hk : s.keyEvent = some k) :
    exec (.ldVxK x) s = .next (s.release.setV x (keyByte k)).advance := by
  simp only [exec, execLdVxK, hk]

theorem exec_ldVxK_of_none {x : Reg} {s : State} (hk : s.keyEvent = none) :
    exec (.ldVxK x) s = .next (s.hold x) := by
  simp only [exec, execLdVxK, hk]

theorem exec_ldVxK_cases {x : Reg} {s t : State} (h : exec (.ldVxK x) s = .next t) :
    (∃ k, s.keyEvent = some k ∧ t = (s.release.setV x (keyByte k)).advance) ∨
    (s.keyEvent = none ∧ t = s.hold x) := by
  cases hk : s.keyEvent with
  | some k =>
    rw [exec_ldVxK_of_key hk] at h
    cases h
    exact .inl ⟨k, rfl, rfl⟩
  | none =>
    rw [exec_ldVxK_of_none hk] at h
    cases h
    exact .inr ⟨rfl, rfl⟩

/-! ### The writers of each field (R39) -/

/-- Settles O52, by the instruction: each arm leaves every field it does not name, by the field's own lemma. -/
theorem eachFieldHasItsWriters : Obligations.EachFieldHasItsWriters := by
  intro i s t h
  cases i with
  | call addr =>
    cases h
    rw [State.callTo_frame]
    simp
  | ret =>
    cases h
    rw [State.returnFrom_frame]
    simp
  | ldVxK x => rcases exec_ldVxK_cases h with ⟨_, _, rfl⟩ | ⟨_, rfl⟩ <;> simp
  | drw x y n =>
    cases h
    simp [State.drawSprite]
  | _ =>
    cases h
    simp

/-! ### What is logged and shown (R31, R220, R221, R245) -/

/-- The records of an instruction, as the table of R220 lists them, oldest first. -/
def State.execRecords (s : State) : Instr → List LogRecord
  | .unknown op => [⟨.decodeUnknown, op⟩]
  | .call _ => if s.sp.val = 16 then [⟨.stackOverflow, s.pc⟩] else []
  | .ret => if s.sp.val = 0 then [⟨.stackUnderflow, s.pc⟩] else []
  | .skp x | .sknp x | .ldFVx x => operandRecords (s.getV x)
  | .drw _ _ n => accessRecords s.i n.toNat
  | .ldBVx _ => accessRecords s.i 3
  | .ldMemVx x | .ldVxMem x => accessRecords s.i (x.toNat + 1)
  | _ => []

theorem State.logs_callTo (s : State) (target : Word) :
    s.Logs (s.callTo target) (if s.sp.val = 16 then [⟨.stackOverflow, s.pc⟩] else []) := by
  rcases s.callTo_cases target with ⟨h, e⟩ | ⟨h, e⟩
  · rw [e, if_neg (by omega)]
    exact s.logs_refl.congr rfl rfl
  · rw [e, if_pos h]
    exact (s.logs_logAnomaly _ _).congr rfl rfl

theorem State.logs_returnFrom (s : State) :
    s.Logs s.returnFrom (if s.sp.val = 0 then [⟨.stackUnderflow, s.pc⟩] else []) := by
  rcases s.returnFrom_cases with ⟨h, e⟩ | ⟨h, e⟩
  · rw [e, if_neg (by omega)]
    exact s.logs_refl.congr rfl rfl
  · rw [e, if_pos h]
    exact (s.logs_logAnomaly _ _).congr rfl rfl

/-- One more byte stored at I extends the records of the run. -/
theorem State.Logs.memWrite {s t : State} {n : Nat} (h : s.Logs t (accessRecords s.i n)) (b : Byte) :
    s.Logs (t.memWrite (s.dataAddr n) b) (accessRecords s.i (n + 1)) :=
  (Logs.snoc h).congr rfl rfl

/-- An instruction logs exactly its records. -/
theorem exec_logs {i : Instr} {s t : State} (h : exec i s = .next t) : s.Logs t (s.execRecords i) := by
  cases i with
  | unknown op =>
    cases h
    exact (s.logs_logAnomaly _ _).congr rfl rfl
  | call addr =>
    cases h
    exact s.logs_callTo _
  | ret =>
    cases h
    exact s.logs_returnFrom
  | skp x | sknp x | ldFVx x =>
    cases h
    exact (s.logs_noteOperand _).congr rfl rfl
  | drw x y n =>
    cases h
    exact (s.logs_noteRun _ _).congr rfl rfl
  | ldBVx x =>
    cases h
    exact (((s.logs_refl.memWrite (n := 0) _).memWrite _).memWrite (bcdUnits (s.getV x))).congr rfl rfl
  | ldMemVx x =>
    cases h
    exact (s.logs_storeRegs _).congr rfl rfl
  | ldVxMem x =>
    cases h
    exact (s.logs_loadRegs _).congr rfl rfl
  | ldVxK x =>
    rcases exec_ldVxK_cases h with ⟨_, _, rfl⟩ | ⟨_, rfl⟩ <;> exact s.logs_refl.congr rfl rfl
  | _ =>
    cases h
    exact s.logs_refl.congr rfl rfl

/-- An instruction takes back nothing the display was told (R245). -/
theorem exec_display {i : Instr} {s t : State} (h : exec i s = .next t) : s.display <+: t.display := by
  cases i with
  | cls =>
    cases h
    simp
  | drw x y n =>
    cases h
    simp [State.drawSprite]
  | call addr =>
    cases h
    rw [State.callTo_frame]
  | ret =>
    cases h
    rw [State.returnFrom_frame]
  | ldVxK x => rcases exec_ldVxK_cases h with ⟨_, _, rfl⟩ | ⟨_, rfl⟩ <;> simp
  | _ =>
    cases h
    simp

/-- No instruction brings a key event about (R128). -/
theorem exec_keyEvent {i : Instr} {s t : State} (h : exec i s = .next t) (hk : s.keyEvent = none) :
    t.keyEvent = none := by
  cases i with
  | call addr =>
    cases h
    rw [State.callTo_frame]
    exact hk
  | ret =>
    cases h
    rw [State.returnFrom_frame]
    exact hk
  | ldVxK x => rcases exec_ldVxK_cases h with ⟨_, _, rfl⟩ | ⟨_, rfl⟩ <;> simp [hk]
  | drw x y n =>
    cases h
    simp [State.drawSprite, hk]
  | _ =>
    cases h
    simp [hk]

theorem State.wf_memWrite {s : State} (a : Word) (b : Byte) (h : s.mem.wf = true) :
    (s.memWrite a b).mem.wf = true := by
  apply State.wf_pokeByte
  rw [State.noteAccess_mem]
  exact h

/-- Memory stays canonical: its two writers write byte by byte (R34). -/
theorem exec_wf {i : Instr} {s t : State} (h : exec i s = .next t) (hm : s.mem.wf = true) : t.mem.wf = true := by
  by_cases e : t.mem = s.mem
  · rw [e]
    exact hm
  · obtain ⟨hw, -⟩ := eachFieldHasItsWriters i s t h
    rcases hw e with ⟨x, rfl⟩ | ⟨x, rfl⟩
    · cases h
      exact State.wf_memWrite _ _ (State.wf_memWrite _ _ (State.wf_memWrite _ _ hm))
    · cases h
      exact s.wf_storeRegs _ hm

/-- ST changes by LD ST, Vx alone, to V[x] (R28). -/
theorem exec_st {i : Instr} {s t : State} (h : exec i s = .next t) :
    t.st = s.st ∨ ∃ x, i = .ldSTVx x ∧ t.st = s.getV x := by
  by_cases e : t.st = s.st
  · exact .inl e
  · obtain ⟨-, -, -, -, hst, -⟩ := eachFieldHasItsWriters i s t h
    obtain ⟨x, rfl⟩ := hst e
    cases h
    exact .inr ⟨x, rfl, rfl⟩

theorem exec_paused {i : Instr} {s t : State} (h : exec i s = .next t) : t.paused = s.paused := by
  obtain ⟨-, -, -, -, -, -, hp, -⟩ := eachFieldHasItsWriters i s t h
  exact hp

/-! ### VF (R22) -/

/-- A register write seen at `q` was a write to `q`. -/
theorem getV_setV_changed {s : State} {x q : Reg} {b : Byte} (h : (s.setV x b).getV q ≠ s.getV q) : x = q := by
  by_contra e
  exact h (s.getV_setV_ne b (Ne.symm e))

/-- Settles O53: where the destination is not V[15] the read of VF passes over the write. -/
theorem onlyFlagWritersTouchVF : Obligations.OnlyFlagWritersTouchVF := by
  intro i s t h hv
  cases i with
  | ldByte x _ | addByte x _ | ldReg x _ | orReg x _ | andReg x _ | xorReg x _ | ldVxDT x =>
    cases h
    obtain rfl := getV_setV_changed hv
    simp
  | rnd x k =>
    cases h
    obtain rfl := getV_setV_changed (s := s.takeRand) hv
    simp
  | ldVxK x =>
    rcases exec_ldVxK_cases h with ⟨k, -, rfl⟩ | ⟨-, rfl⟩
    · obtain rfl := getV_setV_changed (s := s.release) hv
      simp
    · exact absurd rfl hv
  | ldVxMem x =>
    cases h
    have hx : x = VF := by
      by_contra e
      have hlt : ¬ VF.toNat < x.toNat + 1 := fun hle => e (BitVec.eq_of_toNat_eq (by simp at hle ⊢; omega))
      exact hv ((s.getV_loadRegs (x.toNat + 1) (by omega) VF).trans (if_neg hlt))
    simp [hx]
  | addReg x y | sub x y | shr x y | subn x y | shl x y => simp
  | drw x y n => simp
  | call addr =>
    cases h
    rw [State.callTo_frame] at hv
    exact absurd rfl hv
  | ret =>
    cases h
    rw [State.returnFrom_frame] at hv
    exact absurd rfl hv
  | _ =>
    cases h
    simp at hv

/-! ### Net PC (R24) -/

theorem State.callTo_pc (s : State) (addr : Addr) : (s.callTo (addrWord addr)).pc = s.netPc (.call addr) := by
  rcases s.callTo_cases (addrWord addr) with ⟨h, e⟩ | ⟨h, e⟩
  · rw [e, State.netPc, if_pos h]
    rfl
  · rw [e, State.netPc, if_neg (by omega)]
    rfl

theorem State.returnFrom_pc (s : State) : s.returnFrom.pc = s.netPc .ret := by
  rcases s.returnFrom_cases with ⟨h, e⟩ | ⟨h, e⟩
  · rw [e, State.netPc, if_neg (by omega)]
    have hlt : s.sp.val - 1 < 16 := by omega
    exact congrArg s.stack.get (Fin.ext (Nat.mod_eq_of_lt hlt).symm)
  · rw [e, State.netPc, if_pos h]
    rfl

/-- Settles O59, by the rows of the table of R24: the skips by their condition, CALL and RET by the stack, LD Vx, K by
the key, and PC + 2 for the rest. -/
theorem netPcOfEveryInstruction : Obligations.NetPcOfEveryInstruction := by
  intro i s
  cases i with
  | call addr => exact ⟨_, rfl, s.callTo_pc addr⟩
  | ret => exact ⟨_, rfl, s.returnFrom_pc⟩
  | seByte x k | sneByte x k | seReg x y | sneReg x y => exact ⟨_, rfl, by simp [State.netPc]⟩
  | skp x | sknp x => exact ⟨_, rfl, by simp [State.netPc, keyOf]⟩
  | ldVxK x =>
    cases hk : s.keyEvent with
    | none => exact ⟨_, exec_ldVxK_of_none hk, by simp [State.netPc, hk]⟩
    | some k => exact ⟨_, exec_ldVxK_of_key hk, by simp [State.netPc, hk]⟩
  | drw x y n => exact ⟨_, rfl, by simp [State.netPc, State.drawSprite]⟩
  | _ => exact ⟨_, rfl, by simp [State.netPc, addrWord, byteWord, State.offsetTarget]⟩

end Sys2Proof.Machine
end

section
/-! SUPPORT. The machine's invariant: it holds after reset, whatever the filling of memory, and every step keeps it;
what is logged and shown only grows (10_state.md R31, R45; 70_reset_and_hazards.md R265). -/

namespace Sys2Proof.Machine

/-! ### What keeps the invariant's clauses -/

/-- ANOM and LOG go on agreeing when both grow by the same records (R221). -/
theorem State.LogAgrees.logs {s t : State} {recs : List LogRecord} (h : s.LogAgrees) (hl : s.Logs t recs) :
    t.LogAgrees := by
  obtain ⟨hlog, hanom⟩ := hl
  intro c
  rw [hanom c, hlog, List.any_append, h c]

/-- The invariant carries over to a state with the same memory, ANOM and LOG that keeps no key event and no Paused
hold. -/
theorem State.Inv.congr {s t : State} (h : s.Inv) (hm : t.mem = s.mem) (ha : t.anom = s.anom) (hl : t.log = s.log)
    (hk : t.keyEvent = none) (hp : t.waitKey.isSome = true → t.paused = false) : t.Inv where
  memory := hm ▸ h.memory
  key := hk
  hold := hp
  log := h.log.logs (s.logs_refl.congr ha hl)

/-- A Running instruction keeps the invariant. -/
theorem exec_keeps_inv {i : Instr} {s t : State} (h : s.Inv) (hp : s.paused = false) (he : exec i s = .next t) :
    t.Inv where
  memory := exec_wf he h.memory
  key := exec_keyEvent he h.key
  hold _ := (exec_paused he).trans hp
  log := h.log.logs (exec_logs he)

theorem State.Inv.noteFetch {s : State} (h : s.Inv) : s.noteFetch.Inv where
  memory := by simpa using h.memory
  key := by simpa using h.key
  hold := by simpa using h.hold
  log := h.log.logs s.logs_noteFetch

/-- A tick does nothing to a Paused machine and counts both timers down in a Running one (R241). -/
theorem State.tick_cases (s : State) :
    (s.paused = true ∧ s.tick = s) ∨
    (s.paused = false ∧ s.tick = { s with dt := decTimer s.dt, st := decTimer s.st }) := by
  by_cases hp : s.paused = true
  · exact .inl ⟨hp, if_pos hp⟩
  · have hrun : s.paused = false := Bool.eq_false_of_not_eq_true hp
    exact .inr ⟨hrun, State.tick_of_running hrun⟩

/-- Settles O51, by what the turn is: CORE's running instruction keeps the invariant by `exec_keeps_inv`, a tick and
HOST's moves touch none of it, and a sampled toggle can pause the machine in no hold. -/
theorem stepKeepsTheInvariant : Obligations.StepKeepsTheInvariant := by
  intro s t hs h
  have hdrop : s.dropTurn.Inv := hs.congr rfl rfl rfl hs.key hs.hold
  obtain ⟨-, hold | pausedCycle | running | tick | toggle | ignoredKey | key | stop⟩ := step_cases h
  · obtain ⟨x, -, hw, he⟩ := hold
    exact exec_keeps_inv hdrop (hs.hold (by simp [hw])) he
  · obtain ⟨-, hw, -, rfl⟩ := pausedCycle
    exact hs.congr rfl rfl rfl hs.key (by simp [hw])
  · obtain ⟨-, hw, hp, he⟩ := running
    have hsample : s.dropTurn.samplePause.Inv := hs.congr rfl rfl rfl hs.key (by simp [hw])
    exact exec_keeps_inv hsample.noteFetch (by simp [hp]) he
  · obtain ⟨-, rfl⟩ := tick
    rcases s.dropTurn.tick_cases with ⟨-, e⟩ | ⟨-, e⟩ <;> rw [e]
    · exact hdrop
    · exact hs.congr rfl rfl rfl hs.key hs.hold
  · obtain ⟨-, rfl⟩ := toggle
    exact hs.congr rfl rfl rfl hs.key hs.hold
  · obtain ⟨k, -, -, rfl⟩ := ignoredKey
    exact hdrop
  · obtain ⟨k, x, -, -, rfl⟩ := key
    exact hs.congr rfl rfl rfl rfl (by simp)
  · obtain ⟨-, rfl⟩ := stop
    exact hs.congr rfl rfl rfl hs.key hs.hold

/-! ### LOG, ANOM and the display events only grow (R31, R221) -/

/-- `t` has every record, every display event and every bit of ANOM that `s` has. -/
def State.Extends (s t : State) : Prop :=
  s.log <+: t.log ∧ s.display <+: t.display ∧ ∀ c, s.anomBit c = true → t.anomBit c = true

theorem State.Extends.of_logs {s t : State} {recs : List LogRecord} (hl : s.Logs t recs)
    (hd : s.display <+: t.display) : s.Extends t := by
  obtain ⟨hlog, hanom⟩ := hl
  exact ⟨⟨recs, hlog.symm⟩, hd, fun c hc => by rw [hanom c, hc, Bool.true_or]⟩

theorem State.Extends.of_same {s t : State} (ha : t.anom = s.anom) (hl : t.log = s.log)
    (hd : t.display = s.display) : s.Extends t :=
  .of_logs (s.logs_refl.congr ha hl) ⟨[], by rw [hd, List.append_nil]⟩

theorem exec_extends {i : Instr} {s t : State} (h : exec i s = .next t) : s.Extends t :=
  .of_logs (exec_logs h) (exec_display h)

/-- Settles O54: in a Running cycle the fetch's records come first, then the instruction's; a Paused cycle appends one
display event; no other turn touches any of the three. -/
theorem logOnlyGrowsAndAnomIsSticky : Obligations.LogOnlyGrowsAndAnomIsSticky := by
  intro s t h
  change s.Extends t
  obtain ⟨-, hold | pausedCycle | running | tick | toggle | ignoredKey | key | stop⟩ := step_cases h
  · obtain ⟨x, -, -, he⟩ := hold
    have hext : s.dropTurn.Extends t := exec_extends he
    exact hext
  · obtain ⟨-, -, -, rfl⟩ := pausedCycle
    exact .of_logs (s.logs_refl.congr rfl rfl) ⟨_, rfl⟩
  · obtain ⟨-, -, -, he⟩ := running
    have hlogs : s.Logs t _ := (s.dropTurn.samplePause.logs_noteFetch).trans (exec_logs he)
    exact .of_logs hlogs (by simpa using exec_display he)
  · obtain ⟨-, rfl⟩ := tick
    rcases s.dropTurn.tick_cases with ⟨-, e⟩ | ⟨-, e⟩ <;> rw [e] <;> exact .of_same rfl rfl rfl
  · obtain ⟨-, rfl⟩ := toggle
    exact .of_same rfl rfl rfl
  · obtain ⟨k, -, -, rfl⟩ := ignoredKey
    exact .of_same rfl rfl rfl
  · obtain ⟨k, x, -, -, rfl⟩ := key
    exact .of_same rfl rfl rfl
  · obtain ⟨-, rfl⟩ := stop
    exact .of_same rfl rfl rfl

/-! ### The state after reset (R45, R260, R265) -/

/-- Reset meets the invariant with any canonical memory and any stack. -/
theorem reset_inv (m : Memory) (entries : Vector Word 16) (hm : m.wf = true) :
    { State.reset with mem := m, stack := entries }.Inv where
  memory := hm
  key := rfl
  hold h := by cases h
  log c := by simp [State.anomBit, State.reset]

/-- Settles O50: the memory after reset lists no byte. -/
theorem resetMeetsTheInvariant : Obligations.ResetMeetsTheInvariant :=
  reset_inv [] State.reset.stack rfl

/-- The first n bytes of the filling, written from address `base` on. -/
def filledFrom (base : Nat) (fill : Nat → Byte) (n : Nat) : Memory :=
  (List.range n).foldl (fun m k => m.write (base + k) (fill (base + k))) []

theorem filledFrom_succ (base : Nat) (fill : Nat → Byte) (n : Nat) :
    filledFrom base fill (n + 1) = (filledFrom base fill n).write (base + n) (fill (base + n)) := by
  simp [filledFrom, List.range_succ]

theorem filledMemory_eq (fill : Nat → Byte) : filledMemory fill = filledFrom 80 fill 4016 := rfl

/-- Where the filling has been written it is read, and the reset contents elsewhere. -/
theorem read_filledFrom (base : Nat) (fill : Nat → Byte) (n a : Nat) :
    (filledFrom base fill n).read a = if base ≤ a ∧ a < base + n then fill a else resetByte a := by
  induction n with
  | zero =>
    rw [if_neg (by omega)]
    rfl
  | succ n ih =>
    rw [filledFrom_succ, Memory.read_write, ih]
    by_cases e : a = base + n
    · rw [if_pos e, if_pos (by omega), e]
    · rw [if_neg e]
      exact if_congr (by omega) rfl rfl

theorem wf_filledFrom (base : Nat) (fill : Nat → Byte) (n : Nat) (hn : base + n ≤ 4096) :
    (filledFrom base fill n).wf = true := by
  induction n with
  | zero => rfl
  | succ n ih =>
    rw [filledFrom_succ]
    exact Memory.wf_write _ _ _ (ih (by omega)) (by omega)

theorem read_filledMemory (fill : Nat → Byte) (a : Nat) (ha : a < 4096) :
    (filledMemory fill).read a = if 80 ≤ a then fill a else resetByte a := by
  rw [filledMemory_eq, read_filledFrom]
  exact if_congr (by omega) rfl rfl

theorem wf_filledMemory (fill : Nat → Byte) : (filledMemory fill).wf = true := by
  rw [filledMemory_eq]
  exact wf_filledFrom 80 fill 4016 (by omega)

theorem State.byteAt_ofNat (s : State) (a : Nat) (ha : a < 4096) :
    s.byteAt (BitVec.ofNat 16 a) = s.mem.read a := by
  rw [State.byteAt, BitVec.toNat_ofNat, Nat.mod_eq_of_lt (by omega : a < 2 ^ 16), Nat.mod_eq_of_lt ha]

theorem State.resetWith_mem (fill : Nat → Byte) (entries : Vector Word 16) :
    (State.resetWith fill entries).mem = filledMemory fill := by
  rw [State.resetWith]

theorem read_reset (a : Nat) : State.reset.mem.read a = resetByte a := rfl

/-- Settles O47, by what the filling writes and leaves below 80. -/
theorem resetWithAnyFilling : Obligations.ResetWithAnyFilling := by
  intro fill entries
  refine ⟨fun a ha => ?_, fun a hlo hhi => ?_, reset_inv _ entries (wf_filledMemory fill)⟩
  · rw [State.byteAt_ofNat _ a (by omega), State.byteAt_ofNat _ a (by omega), State.resetWith_mem,
      read_filledMemory fill a (by omega), read_reset, if_neg (by omega)]
  · rw [State.byteAt_ofNat _ a hhi, State.resetWith_mem, read_filledMemory fill a hhi, if_pos hlo]

/-- Settles O46: the registers and pixels are those of a constant vector, the rest is read off the state after reset,
and the font byte by byte. -/
theorem resetLeavesTheGivenValues : Obligations.ResetLeavesTheGivenValues := by
  refine ⟨fun r => ?_, rfl, rfl, rfl, rfl, rfl, rfl, rfl, rfl, rfl, rfl, rfl, Frame.pixel_blank, ?_⟩
  · exact Vector.getElem_replicate r.isLt
  · decide

end Sys2Proof.Machine
end

section
/-! SUPPORT. What no instruction reads: ANOM, LOG, the display events, ST and the dead stack entries. One argument for
all of them: a relation that every single write keeps is kept by every instruction (10_state.md R26, R28, R31). -/

namespace Sys2Proof.Machine

/-! ### The single writes that the meanings are made of -/

/-- One write of a meaning to the state. -/
inductive Write where
  | v (r : Reg) (b : Byte)
  | i (w : Word)
  | pc (w : Word)
  | dt (b : Byte)
  | st (b : Byte)
  | byte (a : Word) (b : Byte)
  | fb (f : Frame)
  | anomaly (c : Anomaly) (info : Word)
  | event (e : DisplayEvent)
  | askRand
  | askKeyDown
  | askKeyUp
  | hold (x : Reg)
  | release

/-- What a write does, by the model's own operations. -/
def Write.apply : Write → State → State
  | .v r b, s => s.setV r b
  | .i w, s => s.setI w
  | .pc w, s => s.setPc w
  | .dt b, s => s.setDt b
  | .st b, s => s.setSt b
  | .byte a b, s => s.pokeByte a b
  | .fb f, s => s.setFb f
  | .anomaly c info, s => s.logAnomaly c info
  | .event e, s => s.emit e
  | .askRand, s => s.takeRand
  | .askKeyDown, s => s.takeKeyDown
  | .askKeyUp, s => s.takeKeyUp
  | .hold x, s => s.hold x
  | .release, s => s.release

/-- The same state but for ST, STACK, ANOM, LOG and the display events. -/
def State.SameReads (s s' : State) : Prop :=
  ∃ st stack anom log display,
    s' = { s with st := st, stack := stack, anom := anom, log := log, display := display }

/-- A relation between states that differ in what is not read at most, kept by every write and by the stack
operations. -/
structure Simulation (R : State → State → Prop) : Prop where
  reads {s s' : State} : R s s' → s.SameReads s'
  write {s s' : State} (w : Write) : R s s' → R (w.apply s) (w.apply s')
  callTo {s s' : State} (target : Word) : R s s' → R (s.callTo target) (s'.callTo target)
  returnFrom {s s' : State} : R s s' → R s.returnFrom s'.returnFrom

/-! ### What follows for the shared operations -/

theorem State.SameReads.drawRows {s s' : State} (h : s.SameReads s') (width x0 y0 n : Nat) :
    s'.drawRows width x0 y0 n = s.drawRows width x0 y0 n := by
  obtain ⟨_, _, _, _, _, rfl⟩ := h
  induction n with
  | zero => rfl
  | succ n ih => exact congrArg (Drawing.cols · _ _ _ _) ih

namespace Simulation

variable {R : State → State → Prop} (hR : Simulation R) {s s' : State}

include hR

theorem advance (h : R s s') : R s.advance s'.advance := by
  obtain ⟨_, _, _, _, _, rfl⟩ := hR.reads h
  exact hR.write (.pc _) h

theorem skip (c : Bool) (h : R s s') : R (s.skip c) (s'.skip c) := by
  obtain ⟨_, _, _, _, _, rfl⟩ := hR.reads h
  exact hR.write (.pc _) h

theorem noteAccess (a : Word) (h : R s s') : R (s.noteAccess a) (s'.noteAccess a) := by
  unfold State.noteAccess
  split
  · exact hR.write (.anomaly _ _) h
  · exact h

theorem noteOperand (b : Byte) (h : R s s') : R (s.noteOperand b) (s'.noteOperand b) := by
  unfold State.noteOperand
  split
  · exact hR.write (.anomaly _ _) h
  · exact h

theorem noteRun (base : Word) (n : Nat) (h : R s s') : R (s.noteRun base n) (s'.noteRun base n) := by
  induction n with
  | zero => exact h
  | succ n ih => exact hR.noteAccess _ ih

theorem memWrite (a : Word) (b : Byte) (h : R s s') : R (s.memWrite a b) (s'.memWrite a b) :=
  hR.write (.byte a b) (hR.noteAccess a h)

theorem storeRegs (n : Nat) (h : R s s') : R (s.storeRegs n) (s'.storeRegs n) := by
  obtain ⟨_, _, _, _, _, rfl⟩ := hR.reads h
  induction n with
  | zero => exact h
  | succ n ih => exact hR.memWrite _ _ ih

theorem loadRegs (n : Nat) (h : R s s') : R (s.loadRegs n) (s'.loadRegs n) := by
  obtain ⟨_, _, _, _, _, rfl⟩ := hR.reads h
  induction n with
  | zero => exact h
  | succ n ih => exact hR.write (.v _ _) (hR.noteAccess _ ih)

theorem drawSprite (width : Nat) (x y : Reg) (n : Nat) (h : R s s') :
    R (s.drawSprite width x y n) (s'.drawSprite width x y n) := by
  have hdraw := (hR.reads h).drawRows width (s'.getV x).toNat (s'.getV y).toNat n
  simp only [State.drawSprite, hdraw]
  obtain ⟨_, _, _, _, _, rfl⟩ := hR.reads h
  exact hR.write (.event .render) (hR.write (.v VF _) (hR.write (.fb _) (hR.noteRun _ n h)))

/-- An instruction takes related states to related states, arm by arm: each arm is a few writes, with operands read
off what the two states share. -/
theorem exec_next {i : Instr} {t : State} (h : R s s') (he : exec i s = .next t) :
    ∃ t', exec i s' = .next t' ∧ R t t' := by
  obtain ⟨_, _, _, _, _, rfl⟩ := hR.reads h
  cases i with
  | sys | jp | jpV0 | seByte | sneByte | seReg | sneReg =>
    cases he
    exact ⟨_, rfl, hR.write (.pc _) h⟩
  | addByte x k | ldByte x k | ldReg x y | orReg x y | andReg x y | xorReg x y | ldVxDT x =>
    cases he
    exact ⟨_, rfl, hR.advance (hR.write (.v _ _) h)⟩
  | addReg x y | sub x y | shr x y | subn x y | shl x y =>
    cases he
    exact ⟨_, rfl, hR.advance (hR.write (.v VF _) (hR.write (.v x _) h))⟩
  | ldI | addIVx =>
    cases he
    exact ⟨_, rfl, hR.advance (hR.write (.i _) h)⟩
  | ldDTVx x =>
    cases he
    exact ⟨_, rfl, hR.advance (hR.write (.dt _) h)⟩
  | ldSTVx x =>
    cases he
    exact ⟨_, rfl, hR.advance (hR.write (.st _) h)⟩
  | rnd x k =>
    cases he
    exact ⟨_, rfl, hR.advance (hR.write (.v _ _) (hR.write .askRand h))⟩
  | cls =>
    cases he
    exact ⟨_, rfl, hR.advance (hR.write (.event .clear) (hR.write (.fb .blank) h))⟩
  | unknown op =>
    cases he
    exact ⟨_, rfl, hR.advance (hR.write (.anomaly _ _) h)⟩
  | call addr =>
    cases he
    exact ⟨_, rfl, hR.callTo _ h⟩
  | ret =>
    cases he
    exact ⟨_, rfl, hR.returnFrom h⟩
  | skp x =>
    cases he
    exact ⟨_, rfl, hR.skip _ (hR.write .askKeyDown (hR.noteOperand _ h))⟩
  | sknp x =>
    cases he
    exact ⟨_, rfl, hR.skip _ (hR.write .askKeyUp (hR.noteOperand _ h))⟩
  | ldFVx x =>
    cases he
    exact ⟨_, rfl, hR.advance (hR.write (.i _) (hR.noteOperand _ h))⟩
  | ldBVx x =>
    cases he
    exact ⟨_, rfl, hR.advance (hR.memWrite _ _ (hR.memWrite _ _ (hR.memWrite _ _ h)))⟩
  | ldMemVx x =>
    cases he
    exact ⟨_, rfl, hR.advance (hR.storeRegs _ h)⟩
  | ldVxMem x =>
    cases he
    exact ⟨_, rfl, hR.advance (hR.loadRegs _ h)⟩
  | drw x y n =>
    cases he
    exact ⟨_, rfl, hR.advance (hR.drawSprite _ x y _ h)⟩
  | ldVxK x =>
    rcases exec_ldVxK_cases he with ⟨k, hk, rfl⟩ | ⟨hk, rfl⟩
    · exact ⟨_, exec_ldVxK_of_key hk, hR.advance (hR.write (.v _ _) (hR.write .release h))⟩
    · exact ⟨_, exec_ldVxK_of_none hk, hR.write (.hold x) h⟩

end Simulation

/-! ### ANOM, LOG and the display events (R31, R200, R253) -/

/-- The same state but for ANOM, LOG and the display events. -/
def State.SameButLog (s s' : State) : Prop := ∃ a l d, s' = { s with anom := a, log := l, display := d }

theorem simulation_sameButLog : Simulation State.SameButLog where
  reads := by
    rintro s _ ⟨a, l, d, rfl⟩
    exact ⟨_, _, _, _, _, rfl⟩
  write w := by
    rintro ⟨a, l, d, rfl⟩
    cases w <;> exact ⟨_, _, _, rfl⟩
  callTo {s _} target := by
    rintro ⟨a, l, d, rfl⟩
    unfold State.callTo
    split <;> exact ⟨_, _, _, rfl⟩
  returnFrom {s _} := by
    rintro ⟨a, l, d, rfl⟩
    unfold State.returnFrom
    split <;> exact ⟨_, _, _, rfl⟩

/-- Settles O55: being the same but for what is logged and shown is a simulation. -/
theorem logIsReadByNoInstruction : Obligations.LogIsReadByNoInstruction := by
  intro i s t a l d h
  obtain ⟨t', he, a', l', d', rfl⟩ := simulation_sameButLog.exec_next ⟨a, l, d, rfl⟩ h
  exact ⟨_, he, rfl⟩

/-! ### ST (R28) -/

/-- The same state but for ST. -/
def State.SameButSt (s s' : State) : Prop := ∃ b, s' = { s with st := b }

theorem simulation_sameButSt : Simulation State.SameButSt where
  reads := by
    rintro s _ ⟨b, rfl⟩
    exact ⟨_, _, _, _, _, rfl⟩
  write w := by
    rintro ⟨b, rfl⟩
    cases w <;> exact ⟨_, rfl⟩
  callTo target := by
    rintro ⟨b, rfl⟩
    unfold State.callTo
    split <;> exact ⟨_, rfl⟩
  returnFrom {s _} := by
    rintro ⟨b, rfl⟩
    unfold State.returnFrom
    split <;> exact ⟨_, rfl⟩

/-- A step that changes ST is a Running tick or runs an FX18 (R28, R241). -/
theorem step_changes_st {s t : State} (h : step s = .next t) (hst : t.st ≠ s.st) :
    (s.nextTurn = .tick ∧ s.paused = false ∧ t.st.toNat = s.st.toNat - 1 ∧ t.dt.toNat = s.dt.toNat - 1) ∨
    (s.nextTurn = .core ∧ s.waitKey = none ∧ s.paused = s.pauseToggle ∧
      ∃ x, decodeWord s.fetchWord = .ldSTVx x ∧ t.st = s.getV x) := by
  obtain ⟨-, hold | pausedCycle | running | tick | toggle | ignoredKey | key | stop⟩ := step_cases h
  · obtain ⟨x, -, -, he⟩ := hold
    rcases exec_st he with e | ⟨_, e, -⟩
    · exact absurd e hst
    · cases e
  · obtain ⟨-, -, -, rfl⟩ := pausedCycle
    exact absurd rfl hst
  · obtain ⟨hn, hw, hp, he⟩ := running
    rcases exec_st he with e | ⟨x, hx, e⟩
    · exact absurd (by simpa using e) hst
    · exact .inr ⟨hn, hw, hp, x, hx, by simpa using e⟩
  · obtain ⟨hn, rfl⟩ := tick
    rcases s.dropTurn.tick_cases with ⟨-, e⟩ | ⟨hp, e⟩ <;> rw [e] at hst ⊢
    · exact absurd rfl hst
    · exact .inl ⟨hn, hp, toNat_decTimer _, toNat_decTimer _⟩
  · obtain ⟨-, rfl⟩ := toggle
    exact absurd rfl hst
  · obtain ⟨k, -, -, rfl⟩ := ignoredKey
    exact absurd rfl hst
  · obtain ⟨k, x, -, -, rfl⟩ := key
    exact absurd rfl hst
  · obtain ⟨-, rfl⟩ := stop
    exact absurd rfl hst

/-- A Running tick counts both timers down (R241). -/
theorem step_tick {s : State} (hs : s.stop = false) (hn : s.nextTurn = .tick) (hp : s.paused = false) :
    step s = .next { s.dropTurn with dt := decTimer s.dt, st := decTimer s.st } := by
  have htick : s.dropTurn.tick = { s.dropTurn with dt := decTimer s.dt, st := decTimer s.st } :=
    State.tick_of_running hp
  rw [step_of_turn hs, hn, ← htick]
  rfl

/-- An instruction other than LD ST, Vx leaves ST. -/
theorem exec_st_of_ne {i : Instr} {s t : State} (h : exec i s = .next t) (hi : ∀ x, i ≠ .ldSTVx x) :
    t.st = s.st := by
  rcases exec_st h with e | ⟨x, hx, -⟩
  · exact e
  · exact absurd hx (hi x)

/-- With another ST an instruction does the same to everything else, and leaves it unless it is LD ST, Vx. -/
theorem exec_reads_no_st {i : Instr} {s t : State} (b : Byte) (h : exec i s = .next t) :
    ∃ t', exec i { s with st := b } = .next t' ∧ t' = { t with st := t'.st } ∧
      ((∀ x, i ≠ .ldSTVx x) → t.st = s.st ∧ t'.st = b) := by
  obtain ⟨t', he, b', rfl⟩ := simulation_sameButSt.exec_next ⟨b, rfl⟩ h
  exact ⟨_, he, rfl, fun hi => ⟨exec_st_of_ne h hi, exec_st_of_ne he hi⟩⟩

/-- Settles O56, clause by clause: TONE, the two writers, no other writer, no reader, reset. -/
theorem soundTimerIsWrittenTwoWaysAndReadByNone : Obligations.SoundTimerIsWrittenTwoWaysAndReadByNone := by
  refine ⟨fun s => ?_, fun x s => rfl, fun s hs hn hp => ?_, fun s t h hst => step_changes_st h hst,
    fun i s t b h => exec_reads_no_st b h, rfl, rfl⟩
  · exact decide_eq_true_iff
  · exact ⟨_, step_tick hs hn hp, toNat_decTimer _, toNat_decTimer _⟩

/-! ### The dead stack entries (R26) -/

/-- The same state but for the stack entries at or above SP. -/
def State.SameButDeadStack (s s' : State) : Prop :=
  ∃ entries, s' = { s with stack := entries } ∧ ∀ k : Fin 16, k.val < s.sp.val → entries.get k = s.stack.get k

/-- A push on two stacks with the same live entries leaves the same live entries. -/
theorem get_set_of_lt {a b : Vector Word 16} {n : Nat} (hn : n < 16) (w : Word)
    (hab : ∀ k : Fin 16, k.val < n → a.get k = b.get k) (k : Fin 16) (hk : k.val < n + 1) :
    (a.set n w hn).get k = (b.set n w hn).get k := by
  by_cases e : n = k.val
  · subst e
    exact (Vector.getElem_set_self _).trans (Vector.getElem_set_self _).symm
  · exact (Vector.getElem_set_ne _ _ e).trans ((hab k (by omega)).trans (Vector.getElem_set_ne _ _ e).symm)

theorem simulation_sameButDeadStack : Simulation State.SameButDeadStack where
  reads := by
    rintro s _ ⟨e, rfl, -⟩
    exact ⟨_, _, _, _, _, rfl⟩
  write w := by
    rintro ⟨e, rfl, hlive⟩
    cases w <;> exact ⟨e, rfl, hlive⟩
  callTo target := by
    rintro ⟨e, rfl, hlive⟩
    unfold State.callTo
    split
    · exact ⟨_, rfl, get_set_of_lt _ _ hlive⟩
    · exact ⟨e, rfl, hlive⟩
  returnFrom {s _} := by
    rintro ⟨e, rfl, hlive⟩
    unfold State.returnFrom
    split
    · rename_i hpos
      have hpos : 0 < s.sp.val := hpos
      refine ⟨e, ?_, fun k hk => hlive k (Nat.lt_of_lt_of_le hk (Nat.sub_le _ _))⟩
      rw [hlive ⟨s.sp.val - 1, by omega⟩ (Nat.sub_one_lt (by omega))]
    · exact ⟨e, rfl, hlive⟩

/-- Settles O58: being the same but for the dead entries is a simulation, since RET reads below SP and
CALL writes at SP. -/
theorem deadStackEntriesAreNotRead : Obligations.DeadStackEntriesAreNotRead := by
  intro i s t entries hlive h
  obtain ⟨t', he, entries', rfl, hlive'⟩ := simulation_sameButDeadStack.exec_next ⟨entries, rfl, hlive⟩ h
  exact ⟨_, he, rfl, hlive'⟩

end Sys2Proof.Machine
end

section
/-! SUPPORT. Memory as the fetch and the data accesses see it: a byte written is read back through the 12-bit bus, the
fetch puts two bytes together and records its accesses, and a word put where PC points is the next to run
(20_memory.md). -/

namespace Sys2Proof

/-! ### The word of two bytes and the two bytes of a word (R61) -/

@[simp] theorem extractLsb'_hi_wordOfBytes (hi lo : Byte) : (wordOfBytes hi lo).extractLsb' 8 8 = hi :=
  BitVec.extractLsb'_append_eq_left

@[simp] theorem extractLsb'_lo_wordOfBytes (hi lo : Byte) : (wordOfBytes hi lo).extractLsb' 0 8 = lo :=
  BitVec.extractLsb'_append_eq_right

@[simp] theorem wordOfBytes_extractLsb' (op : Word) : wordOfBytes (op.extractLsb' 8 8) (op.extractLsb' 0 8) = op :=
  (BitVec.extractLsb'_append_extractLsb'_eq_extractLsb' rfl).trans BitVec.extractLsb'_eq_self

/-- A 16-bit word of the table is the word itself. -/
@[simp] theorem tableWord_toNat (op : Word) : tableWord 16 op.toNat = op := by
  rw [tableWord, Nat.mod_eq_of_lt op.isLt, BitVec.ofNat_toNat, BitVec.setWidth_eq]

namespace Machine

/-! ### Bytes through the 12-bit bus (R66, R67) -/

/-- Neighbouring addresses reach different bytes, PC = 0xFFFF among them. -/
theorem toNat_mod_ne_succ (a : Word) : a.toNat % 4096 ≠ (a + 1).toNat % 4096 := by
  have hsucc : (a + 1).toNat = (a.toNat + 1) % 65536 := by simp
  omega

/-- A write leaves the record of its access. -/
theorem State.logs_memWrite (s : State) (a : Word) (b : Byte) : s.Logs (s.memWrite a b) (accessRecords a 1) :=
  (s.logs_noteAccess a).congr rfl rfl

theorem State.memWrite_frame (s : State) (a : Word) (b : Byte) :
    s.memWrite a b =
      { s with mem := (s.memWrite a b).mem, anom := (s.memWrite a b).anom, log := (s.memWrite a b).log } := by
  apply State.ext <;> simp

/-- Settles O44: what a read gives after the write, the record, and the frame. -/
theorem memoryWriteThenRead : Obligations.MemoryWriteThenRead := by
  intro s a b
  have hrecord : accessRecords a 1 = if a.toNat < 0x1000 then [] else [⟨.memRange, a⟩] := by
    rw [State.accessRecords_one, ← ite_not]
    exact if_congr Nat.not_le rfl rfl
  refine ⟨fun q hq => ?_, fun q hq => ?_, hrecord ▸ s.logs_memWrite a b, s.memWrite_frame a b⟩
  · rw [State.byteAt_memWrite, if_pos hq]
  · rw [State.byteAt_memWrite, if_neg hq]

/-! ### The fetch (R61, R62, R65) -/

/-- Settles O8: the word is put together from its two bytes, so each is read back from it. -/
theorem fetchIsBigEndian : Obligations.FetchIsBigEndian := by
  refine ⟨fun s => ⟨extractLsb'_hi_wordOfBytes _ _, extractLsb'_lo_wordOfBytes _ _, rfl⟩, ?_⟩
  intro s hpc hhi hlo
  have hword : s.fetchWord = 0x6A0F := by
    rw [State.fetchWord, hpc, hhi, show (0x200 : Word) + 1 = 0x201 from rfl, hlo]
    rfl
  rw [hword]
  decide

/-- The records of a fetch, by where PC lies (R62): the low byte's address wraps to 0 at 0xFFFF. -/
theorem accessRecords_two (pc : Word) :
    accessRecords pc 2 =
      if pc.toNat < 0x0FFF then []
      else if pc.toNat = 0x0FFF then [⟨.memRange, 0x1000⟩]
      else if pc.toNat = 0xFFFF then [⟨.memRange, 0xFFFF⟩]
      else [⟨.memRange, pc⟩, ⟨.memRange, pc + 1⟩] := by
  have hsucc : (pc + 1).toNat = (pc.toNat + 1) % 65536 := by simp
  have happend : accessRecords pc 2 =
      (if 0x1000 ≤ pc.toNat then [⟨.memRange, pc⟩] else []) ++
        if 0x1000 ≤ (pc + 1).toNat then [⟨.memRange, pc + 1⟩] else [] := by
    rw [State.accessRecords_succ, State.accessRecords_one]
    rfl
  split_ifs with hbelow hlast hwrap
  · rw [happend, if_neg (by omega), if_neg (by omega), List.append_nil]
  · rw [BitVec.eq_of_toNat_eq (y := 0x0FFF) hlast]
    rfl
  · rw [BitVec.eq_of_toNat_eq (y := 0xFFFF) hwrap]
    rfl
  · have hlt := pc.isLt
    rw [happend, if_pos (by omega), if_pos (by omega), List.singleton_append]

/-- Settles O9: only ANOM and LOG are written, and the records are those of two accesses from PC on. -/
theorem fetchLogsOutOfRangeBytes : Obligations.FetchLogsOutOfRangeBytes :=
  fun s => ⟨s.noteFetch_frame, accessRecords_two s.pc ▸ s.logs_noteFetch⟩

/-- Settles O45: a block store of two bytes or more puts V0 at I and V1 at I + 1, where the fetch reads. -/
theorem storeIsSeenByTheNextFetch : Obligations.StoreIsSeenByTheNextFetch := by
  intro x s hx
  refine ⟨_, rfl, fun u hmem hpc => ?_⟩
  have hlt := x.isLt
  have hbyte (k : Nat) (hk : k < x.toNat + 1) : u.byteAt (s.dataAddr k) = s.getV (BitVec.ofNat 4 k) := by
    rw [State.byteAt, hmem]
    exact s.byteAt_storeRegs _ k (by omega) hk
  have hhi : u.byteAt s.i = s.getV 0 := by simpa [State.dataAddr] using hbyte 0 (by omega)
  have hlo : u.byteAt (s.i + 1) = s.getV 1 := hbyte 1 (by omega)
  rw [State.fetchWord, hpc, hhi, hlo]
  rfl

/-! ### A word put where the next step fetches it (R61, R121) -/

/-- A Running cycle of CORE, no hold being in progress, runs the word at PC (R121). -/
theorem step_of_running {s : State} (hstop : s.stop = false) (hturn : s.nextTurn = .core)
    (hwait : s.waitKey = none) (hpause : s.paused = s.pauseToggle) :
    step s = exec (decodeWord s.fetchWord) s.dropTurn.samplePause.noteFetch := by
  rw [step_cycle hstop hturn hwait, State.cycle, if_neg (by simp [hpause])]
  rfl

/-- A sample with no toggle pending changes nothing (R122). -/
theorem State.samplePause_of_no_toggle {s : State} (h : s.pauseToggle = false) : s.samplePause = s := by
  apply State.ext <;> simp [h]

@[simp] theorem State.nextTurn_ready (s : State) : s.ready.nextTurn = .core := by
  show (if s.nextTurn = .core then s.agenda else .core :: s.agenda).headD .core = .core
  split
  · assumption
  · rfl

@[simp] theorem State.fetchWord_placeWord (s : State) (op : Word) : (s.placeWord op).fetchWord = op := by
  have hhi : (s.placeWord op).byteAt s.pc = op.extractLsb' 8 8 := by
    rw [State.placeWord, State.byteAt_pokeByte, if_neg (toNat_mod_ne_succ s.pc), State.byteAt_pokeByte, if_pos rfl]
  have hlo : (s.placeWord op).byteAt (s.pc + 1) = op.extractLsb' 0 8 := by
    rw [State.placeWord, State.byteAt_pokeByte, if_pos rfl]
  calc (s.placeWord op).fetchWord
      = wordOfBytes ((s.placeWord op).byteAt s.pc) ((s.placeWord op).byteAt (s.pc + 1)) := rfl
    _ = op := by rw [hhi, hlo, wordOfBytes_extractLsb']

theorem State.fetchWord_withFetchWord (s : State) (op : Word) : (s.withFetchWord 16 op.toNat).fetchWord = op := by
  rw [State.withFetchWord, tableWord_toNat]
  exact s.fetchWord_placeWord op

/-- Settles O18: the state is ready for a Running cycle, and the word fetched there is the one placed. -/
theorem placedWordIsTheNextToRun : Obligations.PlacedWordIsTheNextToRun := by
  intro s op
  have hstep := step_of_running (s := s.withFetchWord 16 op.toNat) rfl (State.nextTurn_ready _) rfl rfl
  rwa [State.fetchWord_withFetchWord, State.samplePause_of_no_toggle rfl] at hstep

end Machine
end Sys2Proof
end

section
/-! SUPPORT. The decoder and the encoder as two halves of one map: a word is its fields put together, a row of the
opcode map keeps every bit of a word it accepts, and two rows accept one word only at the two exact words of group 0
(30_encoding.md R90 to R97). -/

namespace Sys2Proof

/-! ### A word is its fields put together (R8, R91) -/

theorem fieldGroup_append_fieldAddr (op : Word) : fieldGroup op ++ fieldAddr op = op :=
  (BitVec.extractLsb'_append_extractLsb'_eq_extractLsb' rfl).trans BitVec.extractLsb'_eq_self

theorem word_of_addr {op : Word} {g : BitVec 4} (hg : fieldGroup op = g) : g ++ fieldAddr op = op := by
  rw [← hg, fieldGroup_append_fieldAddr]

theorem fieldGroup_append_fieldX (op : Word) : fieldGroup op ++ fieldX op = op.extractLsb' 8 8 :=
  BitVec.extractLsb'_append_extractLsb'_eq_extractLsb' rfl

theorem word_of_byte {op : Word} {g : BitVec 4} {k : Byte} (hg : fieldGroup op = g) (hk : fieldByte op = k) :
    g ++ fieldX op ++ k = op := by
  rw [← hg, ← hk, fieldGroup_append_fieldX]
  exact wordOfBytes_extractLsb' op

theorem word_of_nibbles {op : Word} {g n : BitVec 4} (hg : fieldGroup op = g) (hn : fieldNibble op = n) :
    g ++ fieldX op ++ fieldY op ++ n = op := by
  have hgxy : op.extractLsb' 8 8 ++ fieldY op = op.extractLsb' 4 12 :=
    BitVec.extractLsb'_append_extractLsb'_eq_extractLsb' rfl
  rw [← hg, ← hn, fieldGroup_append_fieldX, hgxy]
  exact (BitVec.extractLsb'_append_extractLsb'_eq_extractLsb' rfl).trans BitVec.extractLsb'_eq_self

/-! ### What a row says about a word it accepts (R94) -/

namespace OpcodeRow

variable {r q : OpcodeRow} {op : Word}

theorem accepts_iff : r.accepts op = true ↔ op &&& r.mask = r.bits := beq_iff_eq

/-- A field the mask covers has the value the row's own bits have there. -/
theorem extractLsb'_of_accepts {start len : Nat} (h : r.accepts op = true)
    (hm : r.mask.extractLsb' start len = BitVec.allOnes len) :
    op.extractLsb' start len = r.bits.extractLsb' start len := by
  rw [← accepts_iff.mp h, BitVec.extractLsb'_and, hm, BitVec.and_allOnes]

theorem fieldGroup_of_accepts (h : r.accepts op = true) (hm : fieldGroup r.mask = BitVec.allOnes 4) :
    fieldGroup op = fieldGroup r.bits := extractLsb'_of_accepts h hm

theorem fieldByte_of_accepts (h : r.accepts op = true) (hm : fieldByte r.mask = BitVec.allOnes 8) :
    fieldByte op = fieldByte r.bits := extractLsb'_of_accepts h hm

theorem fieldNibble_of_accepts (h : r.accepts op = true) (hm : fieldNibble r.mask = BitVec.allOnes 4) :
    fieldNibble op = fieldNibble r.bits := extractLsb'_of_accepts h hm

/-! A word that a row accepts, put together from the bits of the row and the fields its mask leaves open: one lemma
per operand format (R91). -/

variable {g n : BitVec 4} {k : Byte}

theorem addr_of_accepts (h : r.accepts op = true) (hm : r.mask = 0xF000) (hg : fieldGroup r.bits = g) :
    g ++ fieldAddr op = op :=
  word_of_addr ((fieldGroup_of_accepts h (by rw [hm]; rfl)).trans hg)

theorem x_byte_of_accepts (h : r.accepts op = true) (hm : r.mask = 0xF000) (hg : fieldGroup r.bits = g) :
    g ++ fieldX op ++ fieldByte op = op :=
  word_of_byte ((fieldGroup_of_accepts h (by rw [hm]; rfl)).trans hg) rfl

theorem x_y_nibble_of_accepts (h : r.accepts op = true) (hm : r.mask = 0xF000) (hg : fieldGroup r.bits = g) :
    g ++ fieldX op ++ fieldY op ++ fieldNibble op = op :=
  word_of_nibbles ((fieldGroup_of_accepts h (by rw [hm]; rfl)).trans hg) rfl

theorem x_y_of_accepts (h : r.accepts op = true) (hm : r.mask = 0xF00F) (hg : fieldGroup r.bits = g)
    (hn : fieldNibble r.bits = n) : g ++ fieldX op ++ fieldY op ++ n = op :=
  word_of_nibbles ((fieldGroup_of_accepts h (by rw [hm]; rfl)).trans hg)
    ((fieldNibble_of_accepts h (by rw [hm]; rfl)).trans hn)

theorem x_of_accepts (h : r.accepts op = true) (hm : r.mask = 0xF0FF) (hg : fieldGroup r.bits = g)
    (hk : fieldByte r.bits = k) : g ++ fieldX op ++ k = op :=
  word_of_byte ((fieldGroup_of_accepts h (by rw [hm]; rfl)).trans hg)
    ((fieldByte_of_accepts h (by rw [hm]; rfl)).trans hk)

/-- A row that looks at every bit accepts its own word only. -/
theorem eq_bits_of_accepts (h : r.accepts op = true) (hm : r.mask = BitVec.allOnes 16) : op = r.bits := by
  rw [← accepts_iff.mp h, hm, BitVec.and_allOnes]

/-- Rows that accept one word agree on the bits both look at. -/
theorem bits_and_mask_comm (hr : r.accepts op = true) (hq : q.accepts op = true) :
    r.bits &&& q.mask = q.bits &&& r.mask := by
  rw [← accepts_iff.mp hr, ← accepts_iff.mp hq, BitVec.and_assoc, BitVec.and_assoc, BitVec.and_comm r.mask]

/-- The overlap R94 names: an exact row of group 0 before SYS. -/
def BeforeSys (r q : OpcodeRow) : Prop :=
  q.mnemonic = "SYS_addr" ∧ r.mask = BitVec.allOnes 16 ∧
    (r.bits = 0x00E0 ∧ r.mnemonic = "CLS" ∨ r.bits = 0x00EE ∧ r.mnemonic = "RET")

end OpcodeRow

/-! ### A row keeps every bit of a word it accepts (R91, R94) -/

section

open OpcodeRow

theorem encode_build_of_accepts_low :
    ∀ r ∈ opcodeRowsLow, ∀ op, r.accepts op = true → encode (r.build op) = op := by
  simp only [opcodeRowsLow, List.forall_mem_cons]
  exact ⟨fun _ h => (eq_bits_of_accepts h rfl).symm, fun _ h => (eq_bits_of_accepts h rfl).symm,
    fun _ h => addr_of_accepts h rfl rfl, fun _ h => addr_of_accepts h rfl rfl,
    fun _ h => addr_of_accepts h rfl rfl, fun _ h => x_byte_of_accepts h rfl rfl,
    fun _ h => x_byte_of_accepts h rfl rfl, nofun⟩

theorem encode_build_of_accepts_mid :
    ∀ r ∈ opcodeRowsMid, ∀ op, r.accepts op = true → encode (r.build op) = op := by
  simp only [opcodeRowsMid, List.forall_mem_cons]
  exact ⟨fun _ h => x_y_of_accepts h rfl rfl rfl, fun _ h => x_byte_of_accepts h rfl rfl,
    fun _ h => x_byte_of_accepts h rfl rfl, fun _ h => x_y_of_accepts h rfl rfl rfl,
    fun _ h => x_y_of_accepts h rfl rfl rfl, fun _ h => x_y_of_accepts h rfl rfl rfl,
    fun _ h => x_y_of_accepts h rfl rfl rfl, fun _ h => x_y_of_accepts h rfl rfl rfl,
    fun _ h => x_y_of_accepts h rfl rfl rfl, fun _ h => x_y_of_accepts h rfl rfl rfl,
    fun _ h => x_y_of_accepts h rfl rfl rfl, fun _ h => x_y_of_accepts h rfl rfl rfl,
    fun _ h => x_y_of_accepts h rfl rfl rfl, nofun⟩

theorem encode_build_of_accepts_high :
    ∀ r ∈ opcodeRowsHigh, ∀ op, r.accepts op = true → encode (r.build op) = op := by
  simp only [opcodeRowsHigh, List.forall_mem_cons]
  exact ⟨fun _ h => addr_of_accepts h rfl rfl, fun _ h => addr_of_accepts h rfl rfl,
    fun _ h => x_byte_of_accepts h rfl rfl, fun _ h => x_y_nibble_of_accepts h rfl rfl,
    fun _ h => x_of_accepts h rfl rfl rfl, fun _ h => x_of_accepts h rfl rfl rfl,
    fun _ h => x_of_accepts h rfl rfl rfl, fun _ h => x_of_accepts h rfl rfl rfl,
    fun _ h => x_of_accepts h rfl rfl rfl, fun _ h => x_of_accepts h rfl rfl rfl,
    fun _ h => x_of_accepts h rfl rfl rfl, fun _ h => x_of_accepts h rfl rfl rfl,
    fun _ h => x_of_accepts h rfl rfl rfl, fun _ h => x_of_accepts h rfl rfl rfl,
    fun _ h => x_of_accepts h rfl rfl rfl, nofun⟩

/-- A row keeps every bit of a word it accepts: its mask leaves open just the fields its descriptor holds. -/
theorem encode_build_of_accepts {r : OpcodeRow} {op : Word} (hr : r ∈ opcodeRows) (h : r.accepts op = true) :
    encode (r.build op) = op := by
  rw [opcodeRows, List.mem_append, List.mem_append] at hr
  obtain (hlow | hmid) | hhigh := hr
  · exact encode_build_of_accepts_low r hlow op h
  · exact encode_build_of_accepts_mid r hmid op h
  · exact encode_build_of_accepts_high r hhigh op h

end

/-! ### The overlaps of the rows (R94) -/

/-- Only an exact row of group 0 and SYS agree on the bits both look at. -/
theorem opcodeRows_pairwise_beforeSys :
    opcodeRows.Pairwise fun r q => r.bits &&& q.mask = q.bits &&& r.mask → r.BeforeSys q := by
  unfold OpcodeRow.BeforeSys
  decide

/-- Settles O4: two rows that accept one word agree on the bits both look at, and only an exact row and SYS do. -/
theorem opcodeRowsOverlapOnlyAtSys : Obligations.OpcodeRowsOverlapOnlyAtSys := by
  intro op j k r q hjk hj hk hr hq
  obtain ⟨hjlt, rfl⟩ := List.getElem?_eq_some_iff.mp hj
  obtain ⟨hklt, rfl⟩ := List.getElem?_eq_some_iff.mp hk
  have hcomm := OpcodeRow.bits_and_mask_comm hr hq
  obtain ⟨hsys, hmask, hexact⟩ := List.pairwise_iff_getElem.mp opcodeRows_pairwise_beforeSys j k hjlt hklt hjk hcomm
  rw [← OpcodeRow.eq_bits_of_accepts hr hmask] at hexact
  exact ⟨hsys, hexact⟩

/-! ### The words no row accepts (R93, R97) -/

/-- Only the fallback answers NOP.UNKNOWN. -/
theorem build_ne_unknown {r : OpcodeRow} (hr : r ∈ opcodeRows) (op w : Word) : r.build op ≠ .unknown w := by
  revert r
  simp [opcodeRows, opcodeRowsLow, opcodeRowsMid, opcodeRowsHigh]

/-- The two readings of a word (R93): the fields some row reads, or the word kept whole. -/
theorem decodeWord_cases (op : Word) :
    (∃ r ∈ opcodeRows, r.accepts op = true ∧ decodeWord op = r.build op) ∨
      (∀ r ∈ opcodeRows, r.accepts op = false) ∧ decodeWord op = .unknown op := by
  cases hfind : opcodeRows.find? (·.accepts op) with
  | some r =>
    have ha : r.accepts op = true := by simpa using List.find?_some hfind
    exact .inl ⟨r, List.mem_of_find?_eq_some hfind, ha, by rw [decodeWord, hfind]⟩
  | none => exact .inr ⟨by simpa using hfind, by rw [decodeWord, hfind]⟩

/-- The test of an exact row, with the group it implies, as the tests of the other rows have it. -/
theorem and_mask_word (op m : Word) : (op &&& 0xFFFF == m) = (fieldGroup op == fieldGroup m && op == m) := by
  rw [and_mask_all]
  by_cases h : op = m <;> simp [h]

/-- In group 8, the nibbles the table of R97 lists are those no row has. -/
theorem contains_nibbles_of_group8 (n : BitVec 4) :
    [0x8, 0x9, 0xA, 0xB, 0xC, 0xD, 0xF].contains n = !([0x0, 0x1, 0x2, 0x3, 0x4, 0x5, 0x6, 0x7, 0xE].contains n) := by
  revert n
  decide

/-- The table of R97 lists just the words no row accepts: in each group, the row tests of that group are left, on the
nibble or on the byte. -/
theorem isUnknownWord_eq_not_any (op : Word) : isUnknownWord op = !opcodeRows.any (·.accepts op) := by
  simp (disch := decide) only [opcodeRows, opcodeRowsLow, opcodeRowsMid, opcodeRowsHigh, List.any_append, List.any_cons,
    List.any_nil, OpcodeRow.accepts, and_mask_word, and_mask_group, and_mask_nibble, and_mask_byte]
  rw [isUnknownWord, ← fieldGroup, ← fieldNibble, ← fieldByte, contains_nibbles_of_group8]
  generalize fieldGroup op = g, fieldNibble op = n, fieldByte op = k
  obtain ⟨⟨g, hg⟩⟩ := g
  interval_cases g <;> simp [fieldGroup, fieldNibble, fieldByte, bne, beq_eq_decide]

/-- Settles O5: the table of R97 lists just the words no row accepts, and a row never answers NOP.UNKNOWN. -/
theorem unknownWordsAreThoseOfTheTable : Obligations.UnknownWordsAreThoseOfTheTable := by
  intro op
  rw [isUnknownWord_eq_not_any]
  obtain ⟨r, hr, ha, hd⟩ | ⟨hnone, hd⟩ := decodeWord_cases op
  · have hany : opcodeRows.any (·.accepts op) = true := List.any_eq_true.mpr ⟨r, hr, ha⟩
    exact ⟨by simp [hany], fun _ w => hd ▸ build_ne_unknown hr op w⟩
  · have hany : opcodeRows.any (·.accepts op) = false := List.any_eq_false.mpr (by simpa using hnone)
    exact ⟨fun _ => hd, by simp [hany]⟩

/-! ### Encoding what was decoded (R93) -/

/-- Apart from the fallback, the two words that stand before SYS are the only ones an ill-formed instruction has. -/
theorem wellFormed_of_encode_ne {i : Instr} (hknown : ∀ w, i ≠ .unknown w) (hcls : encode i ≠ 0x00E0)
    (hret : encode i ≠ 0x00EE) : i.wellFormed = true := by
  cases i
  case unknown w => exact absurd rfl (hknown w)
  case sys addr =>
    have hne : addr ≠ 0x0E0 ∧ addr ≠ 0x0EE := ⟨by rintro rfl; exact hcls rfl, by rintro rfl; exact hret rfl⟩
    simpa [Instr.wellFormed] using hne
  all_goals rfl

/-- Settles O2: by the two readings of a word; the exact words of CLS and RET, which SYS accepts too, on their own. -/
theorem everyWordDecodesAndEncodesBack : Obligations.EveryWordDecodesAndEncodesBack := by
  intro op
  by_cases hcls : op = 0x00E0
  · subst hcls
    decide
  by_cases hret : op = 0x00EE
  · subst hret
    decide
  obtain ⟨r, hr, ha, hd⟩ | ⟨hnone, hd⟩ := decodeWord_cases op
  · have hback := encode_build_of_accepts hr ha
    rw [hd]
    exact ⟨wellFormed_of_encode_ne (build_ne_unknown hr op) (by rwa [hback]) (by rwa [hback]), hback⟩
  · rw [hd]
    exact ⟨by simpa [Instr.wellFormed, isUnknownWord_eq_not_any] using hnone, rfl⟩

/-! ### Decoding what was encoded (R90, R91, R94) -/

namespace Laws.OpcodeBits

theorem statement (i : Instr) : Statement i := by
  cases i with
  | cls => exact cls
  | ret => exact ret
  | sys addr => exact sys addr
  | jp addr => exact jp addr
  | call addr => exact call addr
  | seByte x byte => exact seByte x byte
  | sneByte x byte => exact sneByte x byte
  | seReg x y => exact seReg x y
  | ldByte x byte => exact ldByte x byte
  | addByte x byte => exact addByte x byte
  | ldReg x y => exact ldReg x y
  | orReg x y => exact orReg x y
  | andReg x y => exact andReg x y
  | xorReg x y => exact xorReg x y
  | addReg x y => exact addReg x y
  | sub x y => exact sub x y
  | shr x y => exact shr x y
  | subn x y => exact subn x y
  | shl x y => exact shl x y
  | sneReg x y => exact sneReg x y
  | ldI addr => exact ldI addr
  | jpV0 addr => exact jpV0 addr
  | rnd x byte => exact rnd x byte
  | drw x y nibble => exact drw x y nibble
  | skp x => exact skp x
  | sknp x => exact sknp x
  | ldVxDT x => exact ldVxDT x
  | ldVxK x => exact ldVxK x
  | ldDTVx x => exact ldDTVx x
  | ldSTVx x => exact ldSTVx x
  | addIVx x => exact addIVx x
  | ldFVx x => exact ldFVx x
  | ldBVx x => exact ldBVx x
  | ldMemVx x => exact ldMemVx x
  | ldVxMem x => exact ldVxMem x
  | unknown op => exact unknown op

end Laws.OpcodeBits

/-- Every known instruction has its row. -/
theorem exists_row_of_ne_unknown {i : Instr} (hknown : ∀ w, i ≠ .unknown w) :
    ∃ r ∈ opcodeRows, r.accepts (encode i) = true ∧ r.build (encode i) = i := by
  have hrow := Laws.OpcodeBits.statement i
  cases i
  case unknown w => exact absurd rfl (hknown w)
  all_goals exact hrow

theorem build_of_mnemonic_sys {r : OpcodeRow} (hr : r ∈ opcodeRows) (hsys : r.mnemonic = "SYS_addr") (op : Word) :
    r.build op = .sys (fieldAddr op) := by
  revert r
  simp [opcodeRows, opcodeRowsLow, opcodeRowsMid, opcodeRowsHigh]

/-- The priority of the rows (R93): the decoder takes an accepting row that stands no later than any other. -/
theorem exists_row_le_of_accepts {k : Nat} {r : OpcodeRow} {op : Word} (hk : opcodeRows[k]? = some r)
    (ha : r.accepts op = true) :
    ∃ j ≤ k, ∃ q, opcodeRows[j]? = some q ∧ q.accepts op = true ∧ decodeWord op = q.build op := by
  obtain ⟨hklt, rfl⟩ := List.getElem?_eq_some_iff.mp hk
  obtain ⟨q, hfind⟩ := Option.isSome_iff_exists.mp
    (List.find?_isSome.mpr ⟨_, List.getElem_mem hklt, ha⟩ : (opcodeRows.find? (·.accepts op)).isSome = true)
  obtain ⟨haq, j, hjlt, hj, hfirst⟩ := List.find?_eq_some_iff_getElem.mp hfind
  refine ⟨j, ?_, q, List.getElem?_eq_some_iff.mpr ⟨hjlt, hj⟩, haq, by rw [decodeWord, hfind]⟩
  by_contra hkj
  simpa [ha] using hfirst k (not_le.mp hkj)

/-- The row that reads a well-formed instruction from a word is the one the decoder takes: an earlier one would make
it SYS with the word of CLS or of RET. -/
theorem decodeWord_eq_build {r : OpcodeRow} {op : Word} (hr : r ∈ opcodeRows) (ha : r.accepts op = true)
    (hwf : (r.build op).wellFormed = true) : decodeWord op = r.build op := by
  obtain ⟨k, hk⟩ := List.mem_iff_getElem?.mp hr
  obtain ⟨j, hjk, q, hj, haq, hd⟩ := exists_row_le_of_accepts hk ha
  obtain hlt | rfl := lt_or_eq_of_le hjk
  · obtain ⟨hsys, ⟨rfl, -⟩ | ⟨rfl, -⟩⟩ := opcodeRowsOverlapOnlyAtSys op j k q r hlt hj hk haq ha
    all_goals
      rw [build_of_mnemonic_sys hr hsys] at hwf
      exact absurd hwf (by decide)
  · rw [hd, Option.some.inj (hj.symm.trans hk)]

theorem decodeWord_encode {i : Instr} (hwf : i.wellFormed = true) : decodeWord (encode i) = i := by
  by_cases hunknown : ∃ w, i = .unknown w
  · obtain ⟨w, rfl⟩ := hunknown
    exact (unknownWordsAreThoseOfTheTable w).1 hwf
  · obtain ⟨r, hr, ha, hb⟩ := exists_row_of_ne_unknown (not_exists.mp hunknown)
    rw [decodeWord_eq_build hr ha (hb.symm ▸ hwf), hb]

/-- The first two bytes are the instruction, and the rest is left (R61, R90). -/
theorem decode_bytesOfWord_append (op : Word) (rest : List Byte) :
    decode (bytesOfWord op ++ rest) = .ok (decodeWord op, rest) := by
  calc decode (bytesOfWord op ++ rest)
      = .ok (decodeWord (wordOfBytes (op.extractLsb' 8 8) (op.extractLsb' 0 8)), rest) := rfl
    _ = .ok (decodeWord op, rest) := by rw [wordOfBytes_extractLsb']

/-- Settles O1: each instruction's own row reads it back, and the decoder takes that row. -/
theorem decodeOfEncodedInstruction : Obligations.DecodeOfEncodedInstruction := by
  intro i rest hwf
  rw [encodeBytes, decode_bytesOfWord_append, decodeWord_encode hwf]

/-- Settles O3: the twenty words, run through the rows. -/
theorem specVectorsDecode : Obligations.SpecVectorsDecode := by
  unfold Obligations.SpecVectorsDecode
  decide

end Sys2Proof
end

section
/-! SUPPORT. The cycle and the agents' turns: the pause toggle, STOP, the key-wait, END, and what no instruction but
four asks HOST for (40_scheduler_cycle.md, 60_exceptions.md R241, R250, R251). -/

namespace Sys2Proof.Machine

/-! ### A Running cycle (R121) -/

/-- Settles O7: the word fetched is put together from the same two bytes. -/
theorem stepRunsTheDecodedInstruction : Obligations.StepRunsTheDecodedInstruction := by
  intro s i rest hstop hturn hwait hpause hdecode
  have hfetch : decode [s.byteAt s.pc, s.byteAt (s.pc + 1)] = .ok (decodeWord s.fetchWord, []) := rfl
  rw [hfetch] at hdecode
  cases hdecode
  exact step_of_running hstop hturn hwait hpause

/-! ### END (R130) -/

/-- An address below 0x1000 is all in its low 12 bits. -/
theorem addrWord_setWidth {a : Word} (h : a.toNat < 0x1000) : addrWord (a.setWidth 12) = a := by
  apply BitVec.eq_of_toNat_eq
  simp only [addrWord, BitVec.toNat_setWidth]
  omega

/-- The word 0x1000 + a is the jump to a. -/
theorem encode_jp_setWidth {a : Word} (h : a.toNat < 0x1000) : encode (.jp (a.setWidth 12)) = 0x1000 + a := by
  have hbits : (0x1000 : Word).toNat = 0x1000 := rfl
  apply BitVec.eq_of_toNat_eq
  rw [encode, BitVec.toNat_append, ← Nat.shiftLeft_add_eq_or_of_lt (BitVec.isLt _), BitVec.toNat_add]
  simp only [Nat.shiftLeft_eq, BitVec.toNat_setWidth, BitVec.toNat_ofNat]
  omega

/-- The word at END decodes to a jump to PC. -/
theorem State.AtEnd.decodeWord_fetchWord {s : State} (h : s.AtEnd) :
    decodeWord s.fetchWord = .jp (s.pc.setWidth 12) := by
  obtain ⟨-, -, hpc, hword⟩ := h
  rw [hword, ← encode_jp_setWidth hpc, decodeWord_encode rfl]

/-- Settles O17: no toggle is sampled, the fetch is in range, and the jump writes to PC what it holds. -/
theorem endIsAFixedPoint : Obligations.EndIsAFixedPoint := by
  intro s hend hlt hstop htoggle hturn
  have hdecode := hend.decodeWord_fetchWord
  obtain ⟨hrun, hwait, hpc, -⟩ := hend
  rw [step_of_running hstop hturn hwait (hrun.trans htoggle.symm), hdecode,
    State.samplePause_of_no_toggle (s := s.dropTurn) htoggle, State.noteFetch_of_lt (s := s.dropTurn) hlt]
  exact congrArg (fun w => Host.Outcome.next (s.dropTurn.setPc w)) (addrWord_setWidth hpc)

/-! ### The pause (R29, R122, R123) -/

/-- A sample changes PAUSED only where a toggle is pending (R122). -/
theorem State.pauseToggle_of_samplePause_changes {s : State} (h : s.samplePause.paused ≠ s.paused) :
    s.pauseToggle = true := by
  by_contra e
  exact h (by rw [State.samplePause_of_no_toggle (Bool.eq_false_of_not_eq_true e)])

/-- A step that changes PAUSED samples a pending toggle at the top of a cycle (R122). -/
theorem step_changes_paused {s t : State} (h : step s = .next t) (hp : t.paused ≠ s.paused) :
    s.nextTurn = .core ∧ s.waitKey = none ∧ s.pauseToggle = true ∧ t.pauseToggle = false := by
  obtain ⟨-, hold | pausedCycle | running | tick | toggle | ignoredKey | key | stop⟩ := step_cases h
  · obtain ⟨x, -, -, he⟩ := hold
    exact absurd (exec_paused he) hp
  · obtain ⟨hn, hw, -, rfl⟩ := pausedCycle
    exact ⟨hn, hw, State.pauseToggle_of_samplePause_changes (s := s.dropTurn) hp, rfl⟩
  · obtain ⟨hn, hw, -, he⟩ := running
    obtain ⟨-, -, -, -, -, -, hpaused, -, htoggle, -⟩ := eachFieldHasItsWriters _ _ _ he
    have hsample : s.dropTurn.samplePause.paused ≠ s.dropTurn.paused := by simpa [hpaused] using hp
    exact ⟨hn, hw, State.pauseToggle_of_samplePause_changes hsample, by simpa using htoggle⟩
  · obtain ⟨-, rfl⟩ := tick
    rcases s.dropTurn.tick_cases with ⟨-, e⟩ | ⟨-, e⟩ <;> rw [e] at hp <;> exact absurd rfl hp
  · obtain ⟨-, rfl⟩ := toggle
    exact absurd rfl hp
  · obtain ⟨k, -, -, rfl⟩ := ignoredKey
    exact absurd rfl hp
  · obtain ⟨k, x, -, -, rfl⟩ := key
    exact absurd rfl hp
  · obtain ⟨-, rfl⟩ := stop
    exact absurd rfl hp

/-- Settles O11: the toggle's writers are HOST, which raises it, and the sample, which clears it. -/
theorem pauseChangesOnlyAtTheTopOfACycle : Obligations.PauseChangesOnlyAtTheTopOfACycle := by
  refine ⟨fun s t h hp => step_changes_paused h hp, fun s hstop hturn => ?_⟩
  rw [step_of_turn hstop, hturn]
  rfl

/-- A sample that leaves the machine Paused (R122). -/
theorem State.samplePause_of_ne {s : State} (h : s.paused ≠ s.pauseToggle) :
    s.samplePause = { s with paused := true, pauseToggle := false } := by
  apply State.ext <;> simp [h]

/-- A Paused cycle of CORE (R123). -/
theorem step_of_paused {s : State} (hstop : s.stop = false) (hturn : s.nextTurn = .core) (hwait : s.waitKey = none)
    (hpause : s.paused ≠ s.pauseToggle) : step s = .next (s.dropTurn.samplePause.emit .pauseOverlay) := by
  rw [step_cycle hstop hturn hwait, State.cycle, if_pos (by simpa using hpause)]

/-- Settles O10: the Paused cycle and the Paused tick by their turns, and the way out of Paused as the step that
changes PAUSED. -/
theorem pausedCycleMutatesNothing : Obligations.PausedCycleMutatesNothing := by
  refine ⟨fun s hstop hturn hwait hpause => ?_, fun s hstop hturn hpaused => ?_, fun s t h hs ht => ?_⟩
  · rw [step_of_paused hstop hturn hwait hpause, State.samplePause_of_ne (s := s.dropTurn) hpause]
    rfl
  · have htick : s.dropTurn.tick = s.dropTurn := if_pos hpaused
    rw [step_of_turn hstop, hturn, State.take, htick]
    rfl
  · obtain ⟨hturn, hwait, htoggle, -⟩ := step_changes_paused h (by simp [hs, ht])
    exact ⟨hturn, hwait, htoggle⟩

/-! ### STOP (R126, R230, R251) -/

theorem step_of_stop {s : State} (h : s.stop = true) : step s = .fault .stopped := if_pos h

/-- Every instruction has a next state, as it has a net PC (R126). -/
theorem exec_answers (i : Instr) (s : State) : ∃ t, exec i s = .next t := by
  obtain ⟨t, ht, -⟩ := netPcOfEveryInstruction i s
  exact ⟨t, ht⟩

theorem State.cycle_answers (s : State) : ∃ t, s.cycle = .next t := by
  unfold State.cycle
  split
  · exact ⟨_, rfl⟩
  · exact exec_answers _ _

theorem State.coreTurn_of_hold {s : State} {x : Reg} (h : s.waitKey = some x) :
    s.coreTurn = exec (.ldVxK x) s := by
  rw [State.coreTurn, h]

theorem State.coreTurn_of_no_hold {s : State} (h : s.waitKey = none) : s.coreTurn = s.cycle := by
  rw [State.coreTurn, h]

/-- Every turn has a next state: a cycle and a key event as the instruction they run, the rest at once. -/
theorem State.take_answers (s : State) (turn : Turn) : ∃ t, s.take turn = .next t := by
  cases turn with
  | core =>
    cases hw : s.waitKey with
    | some x =>
      rw [State.take, State.coreTurn_of_hold hw]
      exact exec_answers _ _
    | none =>
      rw [State.take, State.coreTurn_of_no_hold hw]
      exact s.cycle_answers
  | keyEvent k =>
    cases hw : s.waitKey with
    | some x => exact ⟨_, State.deliverKey_of_hold hw⟩
    | none => exact ⟨_, State.deliverKey_of_no_hold hw⟩
  | tick | pauseToggle | stop => exact ⟨_, rfl⟩

theorem exec_stop {i : Instr} {s t : State} (h : exec i s = .next t) : t.stop = s.stop := by
  obtain ⟨-, -, -, -, -, -, -, hstop, -⟩ := eachFieldHasItsWriters i s t h
  exact hstop

/-- A step that is not HOST's stop turn leaves STOP at 0 (R251). -/
theorem step_stop {s t : State} (h : step s = .next t) (hturn : s.nextTurn ≠ .stop) : t.stop = false := by
  obtain ⟨hs, hold | pausedCycle | running | tick | toggle | ignoredKey | key | stop⟩ := step_cases h
  · obtain ⟨x, -, -, he⟩ := hold
    exact (exec_stop he).trans hs
  · obtain ⟨-, -, -, rfl⟩ := pausedCycle
    exact hs
  · obtain ⟨-, -, -, he⟩ := running
    simpa [hs] using exec_stop he
  · obtain ⟨-, rfl⟩ := tick
    rcases s.dropTurn.tick_cases with ⟨-, e⟩ | ⟨-, e⟩ <;> rw [e] <;> exact hs
  · obtain ⟨-, rfl⟩ := toggle
    exact hs
  · obtain ⟨k, -, -, rfl⟩ := ignoredKey
    exact hs
  · obtain ⟨k, x, -, -, rfl⟩ := key
    exact hs
  · obtain ⟨e, -⟩ := stop
    exact absurd e hturn

/-- HOST's stop turn sets STOP and nothing else (R251). -/
theorem step_stopTurn {s : State} (hstop : s.stop = false) (hturn : s.nextTurn = .stop) :
    step s = .next s.dropTurn.setStop := by
  rw [step_of_turn hstop, hturn]
  rfl

/-- Settles O14, clause by clause: the stopped machine, every turn and every instruction answering, the stop turn. -/
theorem stepStopsExactlyWhenStopped : Obligations.StepStopsExactlyWhenStopped := by
  refine ⟨fun s h => step_of_stop h, fun s hstop => ?_, fun s hstop hturn => step_stopTurn hstop hturn,
    fun s t h hturn => step_stop h hturn, exec_answers⟩
  rw [step_of_turn hstop]
  exact s.dropTurn.take_answers _

/-! ### The key-wait (R128, R164) -/

/-- A key event during a hold finishes LD Vx, K (R128). -/
theorem step_key_of_hold {s : State} {x : Reg} {k : Key} (hstop : s.stop = false) (hturn : s.nextTurn = .keyEvent k)
    (hwait : s.waitKey = some x) :
    step s = .next ((s.dropTurn.offerKey k).release.setV x (keyByte k)).advance := by
  rw [step_of_turn hstop, hturn]
  exact State.deliverKey_of_hold hwait

theorem toNat_keyByte (k : Key) : (keyByte k).toNat = k.toNat := by
  rw [keyByte, BitVec.toNat_setWidth_of_le (by decide)]

/-- CORE's turn in a hold with no key passes (R128). -/
theorem step_core_of_hold {s : State} {x : Reg} (hstop : s.stop = false) (hturn : s.nextTurn = .core)
    (hwait : s.waitKey = some x) (hkey : s.keyEvent = none) : step s = .next s.dropTurn := by
  have hhold : s.dropTurn.hold x = s.dropTurn := by
    apply State.ext <;> simp [hwait]
  rw [step_core hstop hturn, State.coreTurn_of_hold (s := s.dropTurn) hwait,
    exec_ldVxK_of_none (s := s.dropTurn) hkey, hhold]

/-- A key event outside a hold is ignored (R231). -/
theorem step_key_of_no_hold {s : State} {k : Key} (hstop : s.stop = false) (hturn : s.nextTurn = .keyEvent k)
    (hwait : s.waitKey = none) : step s = .next s.dropTurn := by
  rw [step_of_turn hstop, hturn]
  exact State.deliverKey_of_no_hold hwait

theorem State.nextTurn_of_agenda {s : State} {turn : Turn} {rest : List Turn} (h : s.agenda = turn :: rest) :
    s.nextTurn = turn := by
  rw [State.nextTurn, h, List.headD_cons]

/-- Settles O15, turn by turn: CORE's passes, the key's finishes the instruction, STOP's comes after it or before. -/
theorem holdRunsNothingUntilAKeyArrives : Obligations.HoldRunsNothingUntilAKeyArrives := by
  refine ⟨fun s x hstop hwait => ⟨fun hturn hkey => step_core_of_hold hstop hturn hwait hkey,
    fun k hturn => ?_, fun k rest hagenda => ?_, fun rest hagenda => ?_⟩,
    fun s k hstop hturn hwait => step_key_of_no_hold hstop hturn hwait⟩
  · refine ⟨_, step_key_of_hold hstop hturn hwait, ?_, fun r hr => ?_, rfl, rfl⟩
    · simp [toNat_keyByte]
    · exact State.getV_setV_ne _ _ (by simpa using hr)
  · have hkey := step_key_of_hold hstop (State.nextTurn_of_agenda hagenda) hwait
    have hstopTurn := step_stopTurn
      (s := ((s.dropTurn.offerKey k).release.setV x (keyByte k)).advance) hstop
      (State.nextTurn_of_agenda (turn := .stop) (rest := rest) (by simp [hagenda]))
    refine ⟨_, (run_succ core 1 hkey).trans (run_succ core 0 hstopTurn), ?_, rfl, rfl, rfl⟩
    simp [toNat_keyByte]
  · have hstopTurn := step_stopTurn hstop (State.nextTurn_of_agenda hagenda)
    exact ⟨_, run_succ core 0 hstopTurn, rfl, rfl, hwait, step_of_stop rfl⟩

/-- n decrements saturate at zero (R241, R280). -/
theorem toNat_iterate_decTimer (n : Nat) (b : Byte) : (decTimer^[n] b).toNat = b.toNat - n := by
  induction n generalizing b with
  | zero => rfl
  | succ n ih =>
    rw [Function.iterate_succ_apply, ih, toNat_decTimer]
    omega

/-- n ticks in a row, while Running, count both timers down n times and touch nothing else (R241). -/
theorem run_ticks (n : Nat) {s : State} {rest : List Turn} (hstop : s.stop = false) (hrun : s.paused = false)
    (hagenda : s.agenda = List.replicate n .tick ++ rest) :
    core.run n s = .next { s with dt := decTimer^[n] s.dt, st := decTimer^[n] s.st, agenda := rest } := by
  induction n generalizing s with
  | zero =>
    obtain rfl : s.agenda = rest := hagenda
    rfl
  | succ n ih =>
    have htick := step_tick hstop (State.nextTurn_of_agenda hagenda) hrun
    have htail : s.agenda.tail = List.replicate n .tick ++ rest := by rw [hagenda]; rfl
    exact (run_succ core n htick).trans (ih hstop hrun htail)

/-- CORE fetches an FX0A below 0xFFF and holds at it (R128, R164). -/
theorem step_fetches_ldVxK {s : State} {x : Reg} (hstop : s.stop = false) (hturn : s.nextTurn = .core)
    (hwait : s.waitKey = none) (hkey : s.keyEvent = none) (hrun : s.paused = false) (htoggle : s.pauseToggle = false)
    (hpc : s.pc.toNat < 0x0FFF) (hword : s.fetchWord = encode (.ldVxK x)) :
    step s = .next (s.dropTurn.hold x) := by
  rw [step_of_running hstop hturn hwait (hrun.trans htoggle.symm), hword, decodeWord_encode rfl,
    State.samplePause_of_no_toggle (s := s.dropTurn) htoggle, State.noteFetch_of_lt (s := s.dropTurn) hpc,
    exec_ldVxK_of_none (s := s.dropTurn) hkey]

/-- Settles O16: the fetch, the ticks and the key, one run after the other. -/
theorem keyWaitFromFetchToKey : Obligations.KeyWaitFromFetchToKey := by
  intro s x n k rest hstop hwait hkey hrun htoggle hpc hword hagenda
  have hfetch := step_fetches_ldVxK hstop (State.nextTurn_of_agenda hagenda) hwait hkey hrun htoggle hpc hword
  have hticks := run_ticks n (s := s.dropTurn.hold x) (rest := .keyEvent k :: rest) hstop hrun (by simp [hagenda])
  have hfinish := step_key_of_hold
    (s := { s.dropTurn.hold x with dt := decTimer^[n] s.dt, st := decTimer^[n] s.st, agenda := .keyEvent k :: rest })
    hstop rfl rfl
  refine ⟨_, (run_succ core (n + 1) hfetch).trans ((run_add core n 1 hticks).trans (run_succ core 0 hfinish)),
    ?_, fun r hr => ?_, toNat_iterate_decTimer n s.dt, toNat_iterate_decTimer n s.st, rfl, ?_⟩
  · simp [toNat_keyByte]
  · exact State.getV_setV_ne _ _ (by simpa using hr)
  · apply State.ext <;> simp [hwait, hkey]

/-! ### HOST's answers (R131, R246) -/

/-- What HOST has given: its answers, a key event and the turns to come, with the count of its queries. -/
structure HostSide where
  randIn : List Byte
  keyDownIn : List Bool
  keyUpIn : List Bool
  keyEvent : Option Key
  agenda : List Turn
  draws : Nat

/-- The same state with something else given by HOST. -/
def State.withHost (s : State) (h : HostSide) : State :=
  { s with
    randIn := h.randIn, keyDownIn := h.keyDownIn, keyUpIn := h.keyUpIn, keyEvent := h.keyEvent
    agenda := h.agenda, draws := h.draws }

namespace State

variable (s : State) (h : HostSide)

theorem noteAccess_withHost (a : Word) : (s.withHost h).noteAccess a = (s.noteAccess a).withHost h := by
  unfold noteAccess
  split <;> rfl

theorem noteOperand_withHost (b : Byte) : (s.withHost h).noteOperand b = (s.noteOperand b).withHost h := by
  unfold noteOperand
  split <;> rfl

theorem noteRun_withHost (base : Word) (n : Nat) : (s.withHost h).noteRun base n = (s.noteRun base n).withHost h := by
  induction n with
  | zero => rfl
  | succ n ih => rw [noteRun, ih, noteAccess_withHost, noteRun]

theorem memWrite_withHost (a : Word) (b : Byte) : (s.withHost h).memWrite a b = (s.memWrite a b).withHost h := by
  rw [memWrite, noteAccess_withHost]
  rfl

theorem storeRegs_withHost (n : Nat) : (s.withHost h).storeRegs n = (s.storeRegs n).withHost h := by
  induction n with
  | zero => rfl
  | succ n ih => rw [storeRegs, ih, memWrite_withHost]; rfl

theorem loadRegs_withHost (n : Nat) : (s.withHost h).loadRegs n = (s.loadRegs n).withHost h := by
  induction n with
  | zero => rfl
  | succ n ih => rw [loadRegs, ih, noteAccess_withHost]; rfl

theorem callTo_withHost (target : Word) : (s.withHost h).callTo target = (s.callTo target).withHost h := by
  rcases s.callTo_cases target with ⟨hsp, e⟩ | ⟨hsp, e⟩ <;> rw [e]
  · exact dif_pos hsp
  · exact dif_neg (Nat.not_lt.mpr hsp.ge)

theorem returnFrom_withHost : (s.withHost h).returnFrom = s.returnFrom.withHost h := by
  rcases s.returnFrom_cases with ⟨hsp, e⟩ | ⟨hsp, e⟩ <;> rw [e]
  · exact dif_pos hsp
  · exact dif_neg (Nat.not_lt.mpr hsp.le)

theorem drawRows_withHost (width x0 y0 n : Nat) :
    (s.withHost h).drawRows width x0 y0 n = s.drawRows width x0 y0 n := by
  induction n with
  | zero => rfl
  | succ n ih => exact congrArg (Drawing.cols · _ _ _ _) ih

theorem drawSprite_withHost (width : Nat) (x y : Reg) (n : Nat) :
    (s.withHost h).drawSprite width x y n = (s.drawSprite width x y n).withHost h := by
  simp only [drawSprite, drawRows_withHost]
  show State.emit (State.setFlag (State.setFb ((s.withHost h).noteRun s.i n) _) _) _ = _
  rw [noteRun_withHost]
  rfl

end State

/-- An instruction that asks HOST nothing commutes with what HOST gives: each arm's shared operations do. -/
theorem exec_withHost {i : Instr} {s t : State} (h : HostSide) (hrnd : ∀ x k, i ≠ .rnd x k)
    (hskp : ∀ x, i ≠ .skp x) (hsknp : ∀ x, i ≠ .sknp x) (hkey : ∀ x, i ≠ .ldVxK x) (he : exec i s = .next t) :
    exec i (s.withHost h) = .next (t.withHost h) := by
  cases i with
  | rnd x k => exact absurd rfl (hrnd x k)
  | skp x => exact absurd rfl (hskp x)
  | sknp x => exact absurd rfl (hsknp x)
  | ldVxK x => exact absurd rfl (hkey x)
  | call addr =>
    cases he
    exact congrArg Host.Outcome.next (s.callTo_withHost h _)
  | ret =>
    cases he
    exact congrArg Host.Outcome.next (s.returnFrom_withHost h)
  | ldFVx x =>
    cases he
    exact congrArg (fun u : State => Host.Outcome.next (u.setI (glyphAddr (s.getV x))).advance)
      (s.noteOperand_withHost h _)
  | ldBVx x =>
    cases he
    simp only [exec, execLdBVx, State.memWrite_withHost]
    rfl
  | ldMemVx x =>
    cases he
    exact congrArg (fun u : State => Host.Outcome.next u.advance) (s.storeRegs_withHost h _)
  | ldVxMem x =>
    cases he
    exact congrArg (fun u : State => Host.Outcome.next u.advance) (s.loadRegs_withHost h _)
  | drw x y n =>
    cases he
    exact congrArg (fun u : State => Host.Outcome.next u.advance) (s.drawSprite_withHost h _ x y _)
  | _ =>
    cases he
    rfl

/-- Settles O57: the statement is that commutation, HOST's side written out. -/
theorem onlyFourInstructionsAskHost : Obligations.OnlyFourInstructionsAskHost :=
  fun _ _ _ r d u e g n hrnd hskp hsknp hkey he => exec_withHost ⟨r, d, u, e, g, n⟩ hrnd hskp hsknp hkey he

end Sys2Proof.Machine
end

section
/-! SUPPORT. Control transfer: the two no-ops, the jumps' targets, the call stack and the compares
(41_control_transfer.md R140 to R150, 60_exceptions.md R221 to R223). -/

namespace Sys2Proof.Machine

/-! ### The no-ops (R140, R141) -/

/-- The logged no-op that NOP.UNKNOWN, CALL with a full stack and RET with an empty one share (R221 to R223). -/
theorem State.logs_logAnomaly_advance (s : State) (c : Anomaly) (w : Word) :
    s.Logs (s.logAnomaly c w).advance [⟨c, w⟩] :=
  (s.logs_logAnomaly c w).congr rfl rfl

/-- Settles O19: SYS is the advance alone, NOP.UNKNOWN the advance after one record. -/
theorem noOpsOnlyAdvanceOrLog : Obligations.NoOpsOnlyAdvanceOrLog :=
  ⟨fun _ _ => rfl, fun _ s => ⟨_, rfl, rfl, s.logs_logAnomaly_advance _ _, fun _ => rfl, rfl⟩⟩

/-! ### The jumps (R143, R150) -/

@[simp] theorem toNat_addrWord (addr : Addr) : (addrWord addr).toNat = addr.toNat :=
  BitVec.toNat_setWidth_of_le (by decide)

@[simp] theorem toNat_byteWord (b : Byte) : (byteWord b).toNat = b.toNat :=
  BitVec.toNat_setWidth_of_le (by decide)

/-- 0xFFF + 0xFF is a 16-bit number, so the sum does not wrap. -/
theorem State.toNat_offsetTarget (s : State) (addr : Addr) :
    (s.offsetTarget addr).toNat = addr.toNat + (s.getV 0).toNat := by
  have haddr := addr.isLt
  have hbyte := (s.getV 0).isLt
  rw [State.offsetTarget, BitVec.toNat_add, toNat_addrWord, toNat_byteWord]
  omega

/-- Settles O20: both are one write of PC, to a target that is not reduced. -/
theorem jumpsReachTheirTargets : Obligations.JumpsReachTheirTargets :=
  fun addr s => ⟨⟨_, rfl, toNat_addrWord addr, rfl⟩, _, rfl, s.toNat_offsetTarget addr, rfl⟩

/-! ### The call stack (R142, R144) -/

section

variable {s : State}

theorem State.callTo_of_lt (h : s.sp.val < 16) (target : Word) :
    s.callTo target =
      { s with
        stack := s.stack.set s.sp.val (s.pc + 2) h
        sp := ⟨s.sp.val + 1, Nat.succ_lt_succ h⟩
        pc := target } :=
  dif_pos h

theorem State.callTo_of_full (h : s.sp.val = 16) (target : Word) :
    s.callTo target = (s.logAnomaly .stackOverflow s.pc).advance :=
  dif_neg (by omega)

/-- With k + 1 addresses live, k is the newest. -/
theorem State.returnFrom_of_succ {k : Fin 16} (h : s.sp.val = k.val + 1) :
    s.returnFrom = { s with sp := k.castSucc, pc := s.stack.get k } := by
  rcases s.returnFrom_cases with ⟨_, e⟩ | ⟨hempty, _⟩
  · have hk : s.sp.val - 1 = k.val := by omega
    simp only [e, hk]
    rfl
  · omega

theorem State.returnFrom_of_empty (h : s.sp.val = 0) :
    s.returnFrom = (s.logAnomaly .stackUnderflow s.pc).advance :=
  dif_neg (by omega)

end

/-- Settles O21: the entry written is the one at SP, the others and all of memory stay; a full stack only logs. -/
theorem callPushesOrIsALoggedNoOp : Obligations.CallPushesOrIsALoggedNoOp := by
  intro addr s
  constructor
  · intro h
    refine ⟨_, congrArg Host.Outcome.next (State.callTo_of_lt h _), toNat_addrWord addr, rfl, ?entry, ?others,
      fun _ => rfl, rfl⟩
    case entry => exact Vector.getElem_set_self _
    case others => exact fun k hk => Vector.getElem_set_ne h k.isLt hk.symm
  · intro h
    exact ⟨_, congrArg Host.Outcome.next (State.callTo_of_full h _), rfl, s.logs_logAnomaly_advance _ _, rfl⟩

/-- Settles O22: a pop writes SP and PC alone; an empty stack only logs. -/
theorem retPopsOrIsALoggedNoOp : Obligations.RetPopsOrIsALoggedNoOp := by
  intro s
  constructor
  · intro k h
    exact ⟨_, congrArg Host.Outcome.next (State.returnFrom_of_succ h), rfl, rfl, fun _ => rfl, rfl⟩
  · intro h
    exact ⟨_, congrArg Host.Outcome.next (State.returnFrom_of_empty h), rfl, s.logs_logAnomaly_advance _ _, rfl⟩

/-- Settles O23: the entry that RET reads is the one at the caller's SP, which CALL wrote. -/
theorem returnResumesAfterTheCall : Obligations.ReturnResumesAfterTheCall := by
  intro addr s h
  refine ⟨_, congrArg Host.Outcome.next (State.callTo_of_lt h _), fun u hstack hsp => ?_⟩
  have hlive : u.sp.val = s.sp.val + 1 := congrArg Fin.val hsp
  refine ⟨_, congrArg Host.Outcome.next (State.returnFrom_of_succ (k := ⟨s.sp.val, h⟩) hlive), ?_, rfl⟩
  rw [hstack]
  exact Vector.getElem_set_self _

/-! ### The compares (R145 to R149) -/

theorem State.skip_beq (s : State) (a b : Byte) :
    s.skip (a == b) = { s with pc := if a.toNat = b.toNat then s.pc + 4 else s.pc + 2 } := by
  simp only [State.skip_eq, beq_iff_eq, BitVec.toNat_inj]
  rfl

theorem State.skip_bne (s : State) (a b : Byte) :
    s.skip (a != b) = { s with pc := if a.toNat = b.toNat then s.pc + 2 else s.pc + 4 } := by
  simp only [State.skip_eq, bne_iff_ne, ne_eq, ite_not, BitVec.toNat_inj]
  rfl

theorem State.skip_beq_self (s : State) (a : Byte) : s.skip (a == a) = { s with pc := s.pc + 4 } := by
  rw [State.skip_beq, if_pos rfl]

theorem State.skip_bne_self (s : State) (a : Byte) : s.skip (a != a) = { s with pc := s.pc + 2 } := by
  rw [State.skip_bne, if_pos rfl]

/-- Settles O24: each compare is a skip on an equality or on its negation, and x = y is the case of equal values. -/
theorem comparesSkipExactlyOnTheirCondition : Obligations.ComparesSkipExactlyOnTheirCondition := by
  intro x y k s
  exact ⟨congrArg Host.Outcome.next (s.skip_beq _ _), congrArg Host.Outcome.next (s.skip_bne _ _),
    congrArg Host.Outcome.next (s.skip_beq _ _), congrArg Host.Outcome.next (s.skip_bne _ _),
    congrArg Host.Outcome.next (s.skip_beq_self _), congrArg Host.Outcome.next (s.skip_bne_self _)⟩

end Sys2Proof.Machine
end

section
/-! SUPPORT. The load family: what the decimal and block stores leave in memory, and what a load of registers, of one
register, of a timer or of I leaves behind (42_load.md R160 to R172; R184 of 43_arith_logic.md). -/

namespace Sys2Proof.Machine

/-! ### Bytes stored from I up (R64, R67, R168) -/

theorem toNat_bcdHundreds (b : Byte) : (bcdHundreds b).toNat = b.toNat / 100 := by
  have hlt := b.isLt
  rw [bcdHundreds, BitVec.toNat_ofNat]
  omega

theorem toNat_bcdTens (b : Byte) : (bcdTens b).toNat = b.toNat / 10 % 10 := by
  rw [bcdTens, BitVec.toNat_ofNat]
  omega

theorem toNat_bcdUnits (b : Byte) : (bcdUnits b).toNat = b.toNat % 10 := by
  rw [bcdUnits, BitVec.toNat_ofNat]
  omega

/-- Two bytes of one run of at most 4096 lie at different places of memory, across the top of memory as well. -/
theorem State.dataAddr_mod_ne (s : State) {j k : Nat} (hjk : j ≠ k) (hj : j < 4096) (hk : k < 4096) :
    (s.dataAddr j).toNat % 4096 ≠ (s.dataAddr k).toNat % 4096 := by
  rw [State.dataAddr_mod, State.dataAddr_mod]
  omega

/-- A read after LD B, Vx: the digit stored last at that place of memory, if any was (R168). -/
theorem exec_ldBVx_byteAt {x : Reg} {s t : State} (h : exec (.ldBVx x) s = .next t) (q : Word) :
    t.byteAt q =
      if q.toNat % 4096 = (s.dataAddr 2).toNat % 4096 then bcdUnits (s.getV x)
      else if q.toNat % 4096 = (s.dataAddr 1).toNat % 4096 then bcdTens (s.getV x)
      else if q.toNat % 4096 = (s.dataAddr 0).toNat % 4096 then bcdHundreds (s.getV x)
      else s.byteAt q := by
  cases h
  rw [State.advance_eq, State.byteAt_setPc, State.byteAt_memWrite, State.byteAt_memWrite, State.byteAt_memWrite]

/-- Settles O29: the three digits go to three places of memory, so none is overwritten by a later one. -/
theorem bcdStoresThreeDigits : Obligations.BcdStoresThreeDigits := by
  intro x s
  have h01 := s.dataAddr_mod_ne (j := 0) (k := 1) (by decide) (by decide) (by decide)
  have h02 := s.dataAddr_mod_ne (j := 0) (k := 2) (by decide) (by decide) (by decide)
  have h12 := s.dataAddr_mod_ne (j := 1) (k := 2) (by decide) (by decide) (by decide)
  obtain ⟨t, ht⟩ := exec_answers (.ldBVx x) s
  have hread := exec_ldBVx_byteAt ht
  refine ⟨t, ht, ?hundreds, ?tens, ?units, fun a ha => ?others, exec_logs ht, ?frame⟩
  case hundreds => rw [hread, if_neg h02, if_neg h01, if_pos rfl, toNat_bcdHundreds]
  case tens => rw [hread, if_neg h12, if_pos rfl, toNat_bcdTens]
  case units => rw [hread, if_pos rfl, toNat_bcdUnits]
  case others => rw [hread, if_neg (ha 2 (by decide)), if_neg (ha 1 (by decide)), if_neg (ha 0 (by decide))]
  case frame =>
    cases ht
    apply State.ext <;> simp

/-! ### Blocks of registers to and from memory (R170, R171) -/

/-- Settles O30: the run of x + 1 registers is read back register by register, and it reaches no other byte. -/
theorem blockStoreWritesV0ToVx : Obligations.BlockStoreWritesV0ToVx := by
  intro x s
  refine ⟨_, rfl, fun r hr => ?stored, fun a ha => ?others, exec_logs (i := .ldMemVx x) rfl, ?frame⟩
  case stored =>
    have hread := s.byteAt_storeRegs (x.toNat + 1) r.toNat x.isLt (Nat.lt_succ_of_le hr)
    rwa [BitVec.ofNat_toNat, BitVec.setWidth_eq] at hread
  case others => exact s.byteAt_storeRegs_out _ a fun k hk => ha k (Nat.le_of_lt_succ hk)
  case frame => apply State.ext <;> simp

/-- Settles O31: a register of the run holds its byte of memory, one above Vx is passed over. -/
theorem blockLoadReadsV0ToVx : Obligations.BlockLoadReadsV0ToVx := by
  intro x s
  have hread := s.getV_loadRegs (x.toNat + 1) x.isLt
  refine ⟨_, rfl, fun r hr => ?loaded, fun r hr => ?above, fun a => ?bytes, exec_logs (i := .ldVxMem x) rfl, ?frame⟩
  case loaded => exact (hread r).trans (if_pos (Nat.lt_succ_of_le hr))
  case above => exact (hread r).trans (if_neg (by omega))
  case bytes => simp [State.byteAt]
  case frame => apply State.ext <;> simp

/-- Settles O32: the load reads where the store wrote, since both runs start at the same I. -/
theorem blockStoreThenLoadRoundTrip : Obligations.BlockStoreThenLoadRoundTrip := by
  intro x s
  obtain ⟨t, ht, hstored, -⟩ := blockStoreWritesV0ToVx x s
  refine ⟨t, ht, fun u hmem hi => ?_⟩
  obtain ⟨w, hw, hloaded, -⟩ := blockLoadReadsV0ToVx x u
  refine ⟨w, hw, fun r hr => ?_⟩
  calc w.getV r
      = u.byteAt (u.dataAddr r.toNat) := hloaded r hr
    _ = t.byteAt (s.dataAddr r.toNat) := by rw [State.byteAt, State.dataAddr, hmem, hi]; rfl
    _ = s.getV r := hstored r hr

/-! ### Loads of one register (R160, R161, R163, R164, R172) -/

theorem State.sameRegsBut_setV (s : State) (x : Reg) (b : Byte) : s.SameRegsBut [x] (s.setV x b) :=
  fun _ hr => s.getV_setV_ne b (List.ne_of_not_mem_cons hr)

/-- An instruction that ends in one register write and the advance writes V[x] and PC alone. -/
theorem State.setV_advance_writes_vx (s : State) (x : Reg) (b : Byte) :
    (s.setV x b).advance.getV x = b ∧ s.SameRegsBut [x] (s.setV x b).advance ∧
      (s.setV x b).advance.pc = s.pc + 2 ∧ s.SameBytes (s.setV x b).advance ∧ s.OnlyRegsPc (s.setV x b).advance :=
  ⟨s.getV_setV_same x b, s.sameRegsBut_setV x b, rfl, fun _ => rfl, rfl⟩

/-- Settles O25: both are one register write and the advance, x = 15 included. -/
theorem registerLoadsWriteVx : Obligations.RegisterLoadsWriteVx :=
  fun x y k s => ⟨⟨_, rfl, s.setV_advance_writes_vx x k⟩, _, rfl, s.setV_advance_writes_vx x (s.getV y)⟩

/-- Settles O26: DT is loaded as a register is, each timer is written alone, and TONE is read off ST. -/
theorem timerLoadsMoveOneTimer : Obligations.TimerLoadsMoveOneTimer :=
  fun x s => ⟨⟨_, rfl, s.setV_advance_writes_vx x s.dt⟩, rfl, _, rfl, rfl, decide_eq_true_iff⟩

/-- Settles O28, by whether HOST's key is at the port: the write of V[x] once the hold is over, or the hold. -/
theorem keyLoadCompletesOrHolds : Obligations.KeyLoadCompletesOrHolds := by
  intro x s
  refine ⟨fun k hk => ⟨_, exec_ldVxK_of_key hk, ?value, s.release.sameRegsBut_setV x _, rfl, fun _ => rfl, rfl⟩,
    exec_ldVxK_of_none⟩
  case value => exact (congrArg BitVec.toNat (s.release.getV_setV_same x _)).trans (toNat_keyByte k)

/-! ### The writers of I (R162, R167, R184) -/

theorem toNat_glyphAddr (g : Byte) : (glyphAddr g).toNat = 5 * g.toNat := by
  have hlt := g.isLt
  rw [glyphAddr, BitVec.toNat_ofNat]
  omega

theorem toNat_add_byteWord (w : Word) (b : Byte) : (w + byteWord b).toNat = (w.toNat + b.toNat) % 65536 := by
  rw [BitVec.toNat_add, toNat_byteWord]

/-- Settles O27: each is one write of I; LD F records its operand besides. -/
theorem indexWritersWriteOnlyI : Obligations.IndexWritersWriteOnlyI := by
  intro x addr s
  refine ⟨⟨_, rfl, toNat_addrWord addr, rfl⟩, ⟨_, rfl, toNat_add_byteWord _ _, rfl⟩,
    _, rfl, toNat_glyphAddr _, exec_logs (i := .ldFVx x) rfl, fun a => ?bytes, ?frame⟩
  case bytes => exact s.byteAt_noteOperand _ a
  case frame => apply State.ext <;> simp

end Sys2Proof.Machine
end

section
/-! SUPPORT. The arithmetic family: what a result with a flag leaves behind, each flag as a number, and the eight-bit
results (43_arith_logic.md R180 to R191, R196). -/

namespace Sys2Proof.Machine

/-! ### A result, then its flag (R10, R187, D10) -/

theorem State.getV_VF_setVFlag (s : State) (x : Reg) (b : Byte) (f : Bool) :
    (s.setVFlag x b f).getV VF = flagByte f :=
  (s.setV x b).getV_setV_same VF _

theorem State.getV_setVFlag_of_ne_VF (s : State) {x : Reg} (b : Byte) (f : Bool) (hx : x ≠ VF) :
    (s.setVFlag x b f).getV x = b :=
  ((s.setV x b).getV_setV_ne _ hx).trans (s.getV_setV_same x b)

theorem State.sameRegsBut_setVFlag (s : State) (x : Reg) (b : Byte) (f : Bool) :
    s.SameRegsBut [x, VF] (s.setVFlag x b f) := by
  intro r hr
  obtain ⟨hrx, hrVF⟩ : r ≠ x ∧ r ≠ VF := by simpa using hr
  exact ((s.setV x b).getV_setV_ne _ hrVF).trans (s.getV_setV_ne b hrx)

/-- An instruction that ends in a result with a flag and the advance writes V[x], VF and PC alone; where x = 15 the
flag stands. -/
theorem State.setVFlag_advance_writes_vx_vf (s : State) (x : Reg) {b : Byte} {n : Nat} (f : Bool)
    (hb : b.toNat = n) :
    (s.setVFlag x b f).advance.getV VF = flagByte f ∧
      (x ≠ VF → ((s.setVFlag x b f).advance.getV x).toNat = n) ∧
      s.SameRegsBut [x, VF] (s.setVFlag x b f).advance ∧ (s.setVFlag x b f).advance.pc = s.pc + 2 ∧
      s.SameBytes (s.setVFlag x b f).advance ∧ s.OnlyRegsPc (s.setVFlag x b f).advance :=
  ⟨s.getV_VF_setVFlag x b f, fun hx => (congrArg BitVec.toNat (s.getV_setVFlag_of_ne_VF b f hx)).trans hb,
    s.sameRegsBut_setVFlag x b f, rfl, fun _ => rfl, rfl⟩

/-! ### The flags as numbers (R22, R183, R188 to R191) -/

theorem toNat_flagByte (f : Bool) : (flagByte f).toNat = f.toNat := by
  cases f <;> rfl

theorem flagByte_decide (p : Prop) [Decidable p] : flagByte (decide p) = if p then 1 else 0 := by
  by_cases hp : p <;> simp [flagByte, hp]

theorem flagByte_carryFlag (a b : Byte) :
    flagByte (carryFlag a b) = if 255 < a.toNat + b.toNat then 1 else 0 :=
  flagByte_decide _

theorem flagByte_noBorrowFlag (a b : Byte) :
    flagByte (noBorrowFlag a b) = if b.toNat ≤ a.toNat then 1 else 0 :=
  flagByte_decide _

theorem toNat_flagByte_shrFlag (a : Byte) : (flagByte (shrFlag a)).toNat = a.toNat % 2 := by
  rw [toNat_flagByte, shrFlag, BitVec.getLsbD, Nat.toNat_testBit, pow_zero, Nat.div_one]

theorem toNat_flagByte_shlFlag (a : Byte) : (flagByte (shlFlag a)).toNat = a.toNat / 128 := by
  have hlt : a.toNat / 2 ^ 7 < 2 := by omega
  rw [toNat_flagByte, shlFlag, BitVec.getLsbD, Nat.toNat_testBit]
  exact Nat.mod_eq_of_lt hlt

/-! ### The results as numbers -/

/-- The minuend first, as R188 and R190 write the difference. -/
theorem toNat_sub_byte (a b : Byte) : (a - b).toNat = (a.toNat + 256 - b.toNat) % 256 := by
  rw [BitVec.toNat_sub]
  omega

theorem toNat_ushiftRight_one (a : Byte) : (a >>> 1).toNat = a.toNat / 2 := by
  rw [BitVec.toNat_ushiftRight, Nat.shiftRight_eq_div_pow, pow_one]

theorem toNat_shiftLeft_one (a : Byte) : (a <<< 1).toNat = a.toNat * 2 % 256 := by
  rw [BitVec.toNat_shiftLeft, Nat.shiftLeft_eq, pow_one]

/-! ### Results with a flag (R183, R188 to R191) -/

/-- Settles O35: a result with a flag, the flag being the carry of the registers as they were. -/
theorem addSetsCarry : Obligations.AddSetsCarry :=
  fun x y s =>
    have hwrites := s.setVFlag_advance_writes_vx_vf x (carryFlag (s.getV x) (s.getV y)) (BitVec.toNat_add _ _)
    ⟨_, rfl, hwrites.imp_left (·.trans (flagByte_carryFlag _ _))⟩

/-- The difference of any two bytes as a result with its no-borrow flag; SUB and SUBN differ in the two alone. -/
theorem State.setVFlag_sub_advance_writes (s : State) (x : Reg) (a b : Byte) :
    let t := (s.setVFlag x (a - b) (noBorrowFlag a b)).advance
    t.getV VF = (if b.toNat ≤ a.toNat then 1 else 0) ∧
      (x ≠ VF → (t.getV x).toNat = (a.toNat + 256 - b.toNat) % 256) ∧
      s.SameRegsBut [x, VF] t ∧ t.pc = s.pc + 2 ∧ s.SameBytes t ∧ s.OnlyRegsPc t :=
  (s.setVFlag_advance_writes_vx_vf x _ (toNat_sub_byte a b)).imp_left (·.trans (flagByte_noBorrowFlag a b))

/-- Settles O36: SUBN is SUB's difference with minuend and subtrahend exchanged. -/
theorem subtractsSetNoBorrow : Obligations.SubtractsSetNoBorrow :=
  fun x y s => ⟨⟨_, rfl, s.setVFlag_sub_advance_writes x (s.getV x) (s.getV y)⟩,
    _, rfl, s.setVFlag_sub_advance_writes x (s.getV y) (s.getV x)⟩

/-- Settles O37: a result with a flag each, the flag being the bit of V[x] that leaves; y is in neither. -/
theorem shiftsMoveVxByOneAndIgnoreY : Obligations.ShiftsMoveVxByOneAndIgnoreY := by
  intro x y s
  have hshr := s.setVFlag_advance_writes_vx_vf x (shrFlag (s.getV x)) (toNat_ushiftRight_one (s.getV x))
  have hshl := s.setVFlag_advance_writes_vx_vf x (shlFlag (s.getV x)) (toNat_shiftLeft_one (s.getV x))
  exact ⟨⟨_, rfl, hshr.imp_left fun hVF => (congrArg BitVec.toNat hVF).trans (toNat_flagByte_shrFlag _)⟩,
    _, rfl, hshl.imp_left fun hVF => (congrArg BitVec.toNat hVF).trans (toNat_flagByte_shlFlag _)⟩

/-! ### Results without a flag (R180 to R182, R185, R196) -/

/-- Settles O33: one register write and the advance, so that VF is written only as V[x]. -/
theorem addByteWrapsWithoutFlag : Obligations.AddByteWrapsWithoutFlag :=
  fun x k s => ⟨_, rfl, (s.setV_advance_writes_vx x (s.getV x + k)).imp_left fun hx =>
    (congrArg BitVec.toNat hx).trans (BitVec.toNat_add _ _)⟩

/-- The write of one register and the advance, where the byte written is known bit by bit. -/
theorem State.setV_advance_writes_bits (s : State) (x : Reg) {b : Byte} {p : Nat → Bool}
    (hb : ∀ j, b.getLsbD j = p j) :
    (∀ j < 8, ((s.setV x b).advance.getV x).getLsbD j = p j) ∧ s.SameRegsBut [x] (s.setV x b).advance ∧
      (s.setV x b).advance.pc = s.pc + 2 ∧ s.SameBytes (s.setV x b).advance ∧ s.OnlyRegsPc (s.setV x b).advance :=
  (s.setV_advance_writes_vx x b).imp_left fun hx j _ => (congrArg (BitVec.getLsbD · j) hx).trans (hb j)

/-- Settles O34: each is one register write and the advance, the byte written being bitwise. -/
theorem logicActsOnEachBit : Obligations.LogicActsOnEachBit :=
  fun x _ s => ⟨⟨_, rfl, s.setV_advance_writes_bits x fun _ => BitVec.getLsbD_or⟩,
    ⟨_, rfl, s.setV_advance_writes_bits x fun _ => BitVec.getLsbD_and⟩,
    _, rfl, s.setV_advance_writes_bits x fun _ => BitVec.getLsbD_xor⟩

theorem State.randAnswer_of_cons {s : State} {r : Byte} {rest : List Byte} (h : s.randIn = r :: rest) :
    s.randAnswer = r := by
  rw [State.randAnswer, h, List.headD_cons]

/-- Settles O38: the answer is taken first, and what is written is the masked answer, whichever it is. -/
theorem randomIsMasked : Obligations.RandomIsMasked := by
  intro x k s
  obtain ⟨hx, hregs, hpc, hbytes, -⟩ := s.takeRand.setV_advance_writes_vx x (s.randAnswer &&& k)
  refine ⟨_, rfl, hx, fun r rest hr => ?first, fun hk => ?zero, hregs, hpc, hbytes, rfl⟩
  case first => rw [hx, State.randAnswer_of_cons hr]
  case zero =>
    subst hk
    exact hx.trans BitVec.and_zero

end Sys2Proof.Machine
end

section
/-! SUPPORT. The display and keypad family: what one DRW does to the pixels, to VF and to the rest of the state, the
same sprite drawn twice, seven columns against eight, and the two key skips (44_display_keypad.md R201 to R205). -/

namespace Sys2Proof.Machine

/-! ### CLS (R201) -/

/-- Settles O39: the blank frame is what is written, and one event is emitted. -/
theorem clearTurnsEveryPixelOff : Obligations.ClearTurnsEveryPixelOff :=
  fun _ => ⟨_, rfl, Frame.pixel_blank, fun _ => rfl, rfl⟩

/-! ### One sprite (R202, R203, R66) -/

theorem flagByte_of_true {f : Bool} (h : f = true) : flagByte f = 1 :=
  if_pos h

theorem flagByte_of_ne_true {f : Bool} (h : ¬ f = true) : flagByte f = 0 :=
  if_neg h

theorem State.getV_VF_drawSprite (s : State) (width : Nat) (x y : Reg) (n : Nat) :
    (s.drawSprite width x y n).getV VF =
      flagByte (s.drawRows width (s.getV x).toNat (s.getV y).toNat n).hit :=
  State.getV_setV_same _ VF _

theorem State.sameRegsBut_drawSprite (s : State) (width : Nat) (x y : Reg) (n : Nat) :
    s.SameRegsBut [VF] (s.drawSprite width x y n) := by
  intro r hr
  rw [State.drawSprite_frame]
  exact s.sameRegsBut_setV VF _ r hr

theorem State.sameBytes_drawSprite (s : State) (width : Nat) (x y : Reg) (n : Nat) :
    s.SameBytes (s.drawSprite width x y n) :=
  s.byteAt_noteRun s.i n

/-- DRW as a whole: the drawing with the advance, in which V, FB, the display events, PC and the log are named. -/
theorem State.drawSprite_advance_frame (s : State) (width : Nat) (x y : Reg) (n : Nat) :
    let t := (s.drawSprite width x y n).advance
    t = { s with
      v := t.v, fb := t.fb, display := s.display ++ [.render], pc := s.pc + 2, anom := t.anom, log := t.log } := by
  rw [State.drawSprite_frame]
  rfl

/-- Settles O40: the pixels and the hit are those of the rows drawn, and VF is the hit. -/
theorem drawFlipsExactlyTheCoveredPixels : Obligations.DrawFlipsExactlyTheCoveredPixels := by
  intro x y n s
  obtain ⟨hflip, hkeep, hhit⟩ :=
    s.drawRows_spec 8 (s.getV x).toNat (s.getV y).toNat n.toNat (by decide) (by omega)
  have hVF := s.getV_VF_drawSprite 8 x y n.toNat
  refine ⟨_, rfl, hflip, hkeep, fun hon => ?collision, fun hoff => ?clear, s.sameRegsBut_drawSprite 8 x y n.toNat,
    s.sameBytes_drawSprite 8 x y n.toNat, exec_logs (i := .drw x y n) rfl, s.drawSprite_advance_frame 8 x y n.toNat⟩
  case collision => exact hVF.trans (flagByte_of_true (hhit.mpr hon))
  case clear =>
    refine hVF.trans (flagByte_of_ne_true fun hit => ?_)
    obtain ⟨r, c, hcov, hon⟩ := hhit.mp hit
    exact Bool.false_ne_true ((hoff r c hcov).symm.trans hon)

/-! ### The same sprite twice (R202) -/

/-- The sprite is what memory holds from I up; nothing else of the state is in it. -/
theorem State.spriteCovers_congr {s u : State} (hmem : u.mem = s.mem) (hi : u.i = s.i) (width x0 y0 n : Nat)
    (r : Fin 32) (c : Fin 64) : u.SpriteCovers width x0 y0 n r c ↔ s.SpriteCovers width x0 y0 n r c := by
  simp only [State.SpriteCovers, State.byteAt, State.dataAddr, hmem, hi]

/-- Settles O41: the second draw covers the same pixels, so each is flipped twice or never; the first draw turned the
covered ones on, which is the collision of the second. -/
theorem drawingTwiceClearsAndCollides : Obligations.DrawingTwiceClearsAndCollides := by
  rintro x y n s hoff ⟨r₀, c₀, hcov₀⟩
  obtain ⟨t, ht, hflip, hkeep, -, hclear, -⟩ := drawFlipsExactlyTheCoveredPixels x y n s
  refine ⟨t, ht, hclear hoff, fun u hfb hmem hi hx hy => ?_⟩
  obtain ⟨w, hw, hflip', hkeep', hcollision, -⟩ := drawFlipsExactlyTheCoveredPixels x y n u
  simp only [hx, hy, hfb, State.spriteCovers_congr hmem hi] at hflip' hkeep' hcollision
  refine ⟨w, hw, Frame.ext_pixel fun r c => ?_, hcollision ⟨r₀, c₀, hcov₀, ?_⟩⟩
  · by_cases hcov : s.SpriteCovers 8 (s.getV x).toNat (s.getV y).toNat n.toNat r c
    · rw [hflip' r c hcov, hflip r c hcov, Bool.not_not]
    · rw [hkeep' r c hcov, hkeep r c hcov]
  · rw [hflip r₀ c₀ hcov₀, hoff r₀ c₀ hcov₀, Bool.not_false]

/-! ### Seven columns and eight (R203) -/

/-- The eighth column is bit 0 of the row's byte. -/
theorem Drawing.cols_seven_eq_eight (d : Drawing) (r : Fin 32) (x0 : Nat) {b : Byte} (hb : b.getLsbD 0 = false) :
    d.cols r x0 b 7 = d.cols r x0 b 8 :=
  (if_neg (ne_true_of_eq_false hb)).symm

theorem State.drawRows_seven_eq_eight (s : State) (x0 y0 n : Nat)
    (hrows : ∀ k < n, (s.byteAt (s.dataAddr k)).getLsbD 0 = false) :
    s.drawRows 7 x0 y0 n = s.drawRows 8 x0 y0 n := by
  induction n with
  | zero => rfl
  | succ n ih =>
    rw [State.drawRows, State.drawRows, ih fun k hk => hrows k (Nat.lt_succ_of_lt hk),
      Drawing.cols_seven_eq_eight _ _ _ (hrows n n.lt_succ_self)]

/-- Settles O42: DRW's width is in the rows drawn alone, and the font is eighty bytes to look at. -/
theorem sevenAndEightColumnsAgree : Obligations.SevenAndEightColumnsAgree := by
  refine ⟨fun x y n s hrows => ?_, by decide⟩
  rw [State.drawSprite, State.drawSprite, s.drawRows_seven_eq_eight _ _ n hrows]

/-! ### The key skips (R204, R205, R246) -/

theorem toNat_keyOf (b : Byte) : (keyOf b).toNat = b.toNat % 16 :=
  BitVec.toNat_setWidth 4 b

theorem State.keyDownAnswer_of_cons {s : State} {b : Bool} {rest : List Bool} (h : s.keyDownIn = b :: rest) (k : Key) :
    s.keyDownAnswer k = b := by
  rw [State.keyDownAnswer, h, List.headD_cons]

theorem State.keyUpAnswer_of_cons {s : State} {b : Bool} {rest : List Bool} (h : s.keyUpIn = b :: rest) (k : Key) :
    s.keyUpAnswer k = b := by
  rw [State.keyUpAnswer, h, List.headD_cons]

theorem exec_skp_frame {x : Reg} {s t : State} (h : exec (.skp x) s = .next t) :
    s.SameBytes t ∧
      t = { s with pc := t.pc, keyDownIn := s.keyDownIn.tail, draws := s.draws + 1, anom := t.anom, log := t.log } := by
  cases h
  refine ⟨s.byteAt_noteOperand _, ?_⟩
  apply State.ext <;> simp

theorem exec_sknp_frame {x : Reg} {s t : State} (h : exec (.sknp x) s = .next t) :
    s.SameBytes t ∧
      t = { s with pc := t.pc, keyUpIn := s.keyUpIn.tail, draws := s.draws + 1, anom := t.anom, log := t.log } := by
  cases h
  refine ⟨s.byteAt_noteOperand _, ?_⟩
  apply State.ext <;> simp

/-- Settles O43: PC is the row of R24, where the key asked about is V[x]'s low four bits; SKP's query takes from one
list of answers, SKNP's from the other. -/
theorem keySkipsFollowHostsAnswer : Obligations.KeySkipsFollowHostsAnswer := by
  intro x k s hk
  obtain rfl : k = keyOf (s.getV x) := BitVec.eq_of_toNat_eq (hk.trans (toNat_keyOf _).symm)
  constructor
  · obtain ⟨t, ht, hpc⟩ := netPcOfEveryInstruction (.skp x) s
    refine ⟨t, ht, hpc, fun b rest hb => ?_, exec_logs ht, exec_skp_frame ht⟩
    rw [hpc, State.netPc, State.keyDownAnswer_of_cons hb]
  · obtain ⟨t, ht, hpc⟩ := netPcOfEveryInstruction (.sknp x) s
    refine ⟨t, ht, hpc, fun b rest hb => ?_, exec_logs ht, exec_sknp_frame ht⟩
    rw [hpc, State.netPc, State.keyUpAnswer_of_cons hb]

end Sys2Proof.Machine
end

section
/-! SUPPORT. The timers' decay (60_exceptions.md R241, R280) and where an instruction leaves a record (R220, R225 to
R227). -/

namespace Sys2Proof.Machine

/-! ### Ticks -/

/-- Settles O12: a tick while Running is one decrement of each timer. -/
theorem tickDecrementsBothTimers : Obligations.TickDecrementsBothTimers :=
  fun s hstop hturn hrun =>
    ⟨_, step_tick hstop hturn hrun, toNat_decTimer s.dt, toNat_decTimer s.st, rfl⟩

/-- Settles O13: the run of n ticks applies the saturating decrement n times to each timer. -/
theorem timersReachZeroAndStay : Obligations.TimersReachZeroAndStay :=
  fun n s _ hstop hrun hagenda =>
    ⟨_, run_ticks n hstop hrun hagenda, toNat_iterate_decTimer n s.dt, toNat_iterate_decTimer n s.st, rfl⟩

/-! ### Records -/

theorem operandRecords_ne_nil_iff (b : Byte) : operandRecords b ≠ [] ↔ 15 < b.toNat := by
  simp [operandRecords]

/-- A run of accesses leaves a record exactly where one of its addresses is beyond the memory (R66, R67). -/
theorem State.accessRecords_ne_nil_iff (s : State) (n : Nat) :
    accessRecords s.i n ≠ [] ↔ ∃ k < n, 0x1000 ≤ (s.dataAddr k).toNat := by
  simp [accessRecords, State.dataAddr]

/-- An instruction that has a record is in one of the rows of R220. -/
theorem State.execRecords_ne_nil {s : State} {i : Instr} (h : s.execRecords i ≠ []) :
    (∃ op, i = .unknown op) ∨ (∃ addr, i = .call addr ∧ s.sp.val = 16) ∨ (i = .ret ∧ s.sp.val = 0) ∨
    (∃ x, (i = .skp x ∨ i = .sknp x ∨ i = .ldFVx x) ∧ 15 < (s.getV x).toNat) ∨
    ∃ k < 16, 0x1000 ≤ (s.dataAddr k).toNat ∧
      ((∃ x y n, i = .drw x y n ∧ k < n.toNat) ∨ (∃ x, i = .ldBVx x ∧ k < 3) ∨
        ∃ x, (i = .ldMemVx x ∨ i = .ldVxMem x) ∧ k ≤ x.toNat) := by
  cases i with
  | unknown op => exact .inl ⟨op, rfl⟩
  | call addr => exact .inr (.inl ⟨addr, rfl, (ite_ne_right_iff.mp h).1⟩)
  | ret => exact .inr (.inr (.inl ⟨rfl, (ite_ne_right_iff.mp h).1⟩))
  | skp x | sknp x | ldFVx x =>
    exact .inr (.inr (.inr (.inl ⟨x, by simp, (operandRecords_ne_nil_iff _).mp h⟩)))
  | drw x y n =>
    obtain ⟨k, hk, haddr⟩ := (s.accessRecords_ne_nil_iff n.toNat).mp h
    exact .inr (.inr (.inr (.inr ⟨k, hk.trans n.isLt, haddr, .inl ⟨x, y, n, rfl, hk⟩⟩)))
  | ldBVx x =>
    obtain ⟨k, hk, haddr⟩ := (s.accessRecords_ne_nil_iff 3).mp h
    exact .inr (.inr (.inr (.inr ⟨k, by omega, haddr, .inr (.inl ⟨x, rfl, hk⟩)⟩)))
  | ldMemVx x | ldVxMem x =>
    obtain ⟨k, hk, haddr⟩ := (s.accessRecords_ne_nil_iff (x.toNat + 1)).mp h
    exact .inr (.inr (.inr (.inr ⟨k, by omega, haddr, .inr (.inr ⟨x, by simp, Nat.le_of_lt_succ hk⟩)⟩)))
  | _ => exact absurd rfl h

/-- Settles O60: LOG grows by the instruction's records, so where it differs they are not empty. -/
theorem anomaliesOnlyWhereListed : Obligations.AnomaliesOnlyWhereListed := by
  intro i s t h hlog
  obtain ⟨hgrow, -⟩ := exec_logs h
  refine State.execRecords_ne_nil fun hnil => hlog ?_
  rw [hgrow, hnil, List.append_nil]

end Sys2Proof.Machine
end

section
/-! SUPPORT. Loading a program before the first step: where its bytes go and which lengths are accepted
(70_reset_and_hazards.md R263, R264). -/

namespace Sys2Proof.Machine

/-! ### A program's bytes in memory (R263) -/

/-- What loading does to each address: `getD` falls back to the old byte past the program's end. -/
theorem Memory.read_load (m : Memory) (a q : Nat) (bytes : List Byte) :
    (m.load a bytes).read q = if q < a then m.read q else bytes.getD (q - a) (m.read q) := by
  induction bytes generalizing m a with
  | nil => simp [Memory.load]
  | cons b rest ih =>
    rw [Memory.load, ih, Memory.read_write]
    rcases Nat.lt_trichotomy q a with hlt | rfl | hgt
    · rw [if_pos (by omega), if_neg (by omega), if_pos hlt]
    · simp
    · obtain ⟨k, rfl⟩ := Nat.exists_eq_add_of_lt hgt
      rw [if_neg (by omega), if_neg (by omega), if_neg (by omega), show a + k + 1 - (a + 1) = k by omega,
        show a + k + 1 - a = k + 1 by omega, List.getD_cons_succ]

/-- A program that ends inside the address range keeps the canonical form. -/
theorem Memory.wf_load {m : Memory} {a : Nat} {bytes : List Byte} (h : m.wf = true) (hfit : a + bytes.length ≤ 4096) :
    (m.load a bytes).wf = true := by
  induction bytes generalizing m a with
  | nil => exact h
  | cons b rest ih =>
    rw [List.length_cons] at hfit
    exact ih (Memory.wf_write m a b h (by omega)) (by omega)

/-! ### Which programs are accepted (R264) -/

theorem State.load_of_le {bytes : List Byte} (s : State) (h : bytes.length ≤ 3584) :
    s.load bytes = .next { s with mem := s.mem.load 0x200 bytes } := if_pos h

theorem State.load_of_gt {bytes : List Byte} (s : State) (h : 3584 < bytes.length) :
    s.load bytes = .refused .programTooLong := if_neg (Nat.not_le.mpr h)

/-- Settles O48: byte k is read at 0x200 + k, and an address outside the program reads as before. -/
theorem loadPlacesTheProgram : Obligations.LoadPlacesTheProgram := by
  intro bytes s hlen
  refine ⟨_, s.load_of_le hlen, fun k hk => ?placed, fun a ha => ?others, fun hwf => Memory.wf_load hwf (by omega), rfl⟩
  case placed =>
    rw [State.byteAt_ofNat _ _ (by omega), Memory.read_load, if_neg (by omega), Nat.add_sub_cancel_left,
      List.getD_eq_getElem _ _ hk]
  case others =>
    rw [State.byteAt, Memory.read_load, State.byteAt]
    rcases ha with hbelow | habove
    · rw [if_pos hbelow]
    · rw [if_neg (by omega), List.getD_eq_default _ _ (by omega)]

/-- Settles O49: up to 3584 bytes load answers, beyond that it refuses; the empty program writes no byte. -/
theorem loadRefusesExactlyTooLongPrograms : Obligations.LoadRefusesExactlyTooLongPrograms := by
  intro bytes s
  refine ⟨⟨fun h => ⟨_, s.load_of_le h⟩, fun ⟨t, ht⟩ => ?_⟩, s.load_of_gt, s.load_of_le (Nat.zero_le _)⟩
  by_contra hlong
  rw [s.load_of_gt (Nat.not_le.mp hlong)] at ht
  cases ht

end Sys2Proof.Machine
end
